-- ==== Sys2Proof/Word.lean ====
section
/-! DEFINITION. The two word types of the BNPU: the 8-bit cell, command word and character code
(`00_scope.md` R10 (b), (d), (e)) and the 16-bit length register (R10 (c)). All values are unsigned
(R11). -/

namespace Sys2Proof

/-- One buffer cell, one command word or one character code (`00_scope.md` R10). -/
abbrev Byte := BitVec 8

/-- One length register (`00_scope.md` R10 (c)). -/
abbrev Half := BitVec 16

end Sys2Proof
end

