-- ==== Sys2Proof/Syntax.lean ====
section
/-! DEFINITION. The command set BNPU-1 as syntax: the seven alphabets, the eleven commands (one
constructor per row of `spec/opcode_table.json`), and the three raw fields of the one format C8
(`30_encoding.md` R71 to R75). -/

namespace Sys2Proof

/-- The seven named alphabets, in the order of their identifiers A = 0 to 6 (`30_encoding.md` R72;
`00_scope.md` R2). -/
inductive Alphabet where
  | base16
  | base16upper
  | base32
  | base32hex
  | base64
  | base64url
  | octal
deriving DecidableEq, Repr

/-- The eleven commands (`30_encoding.md` R73). `f` is the F field where F may be 1 (R74): the pad
option of PADA and ENCODE, "pad character allowed" in C2V. `a` is the alphabet the A field selects
(R75). -/
inductive Instr where
  | nop
  | pack (a : Alphabet)
  | unpack (a : Alphabet)
  | v2c (a : Alphabet)
  | c2v (f : Bool) (a : Alphabet)
  | pada (f : Bool) (a : Alphabet)
  | pads (a : Alphabet)
  | encode (f : Bool) (a : Alphabet)
  | decode (a : Alphabet)
  | geom (a : Alphabet)
  | xfer
deriving DecidableEq, Repr

/-- The fields of a word of format C8, before any check (`30_encoding.md` R71). -/
structure Fields where
  op : BitVec 4
  f  : Bool
  a  : BitVec 3
deriving DecidableEq, Repr

end Sys2Proof
end

