-- ==== Sys2Proof/WellFormed.lean ====
section
/-! DEFINITION. Which fields form a command: the checks of `30_encoding.md` R76, each with a name of
its own. `Instr` itself is typed so that an ill-formed command cannot be written as one (log entry
17); the fields of a word can be ill-formed, and these checks refuse them. -/

namespace Sys2Proof

/-- Why the fields of a word form no command (`30_encoding.md` R76). The machine reports one error
code for all four (IllegalCommand, R203). -/
inductive IllegalWord where
  /-- OP is 0xB to 0xF. -/
  | reservedOp
  /-- OP is 0x1 to 0x9 and A = 7. -/
  | reservedAlphabet
  /-- OP is 0x0 or 0xA and A ≠ 0. -/
  | strayAlphabet
  /-- F = 1 and OP is not 0x4, 0x5 or 0x7. -/
  | strayFlag
deriving DecidableEq, Repr

/-- OP is one of the reserved values 0xB to 0xF (`30_encoding.md` R73, R76). -/
def Fields.opReserved (x : Fields) : Bool := decide (0xB ≤ x.op.toNat)

/-- OP is NOP or XFER, which take no alphabet (`30_encoding.md` R75). -/
def Fields.opTakesNoAlphabet (x : Fields) : Bool :=
  x.op.toNat == 0x0 || x.op.toNat == 0xA

/-- OP is C2V, PADA or ENCODE, where F may be 1 (`30_encoding.md` R74). -/
def Fields.opTakesFlag (x : Fields) : Bool :=
  x.op.toNat == 0x4 || x.op.toNat == 0x5 || x.op.toNat == 0x7

/-- The first of R76's conditions that holds, in the order R76 lists them; `none` when the fields are
legal. -/
def Fields.illegal (x : Fields) : Option IllegalWord :=
  if x.opReserved then some .reservedOp
  else if !x.opTakesNoAlphabet && x.a.toNat == 7 then some .reservedAlphabet
  else if x.opTakesNoAlphabet && x.a.toNat != 0 then some .strayAlphabet
  else if x.f && !x.opTakesFlag then some .strayFlag
  else none

/-- The fields form a command (`30_encoding.md` R76). -/
def Fields.wellFormed (x : Fields) : Bool := x.illegal.isNone

end Sys2Proof
end

