-- ==== Sys2Proof/Decode.lean ====
section
/-! DEFINITION. Decoding and encoding of the 8-bit command word (`30_encoding.md` R70 to R77).
Decoding is total and depends on the word alone (R77). -/

namespace Sys2Proof

/-- The alphabet an A field selects; 7 is reserved (`30_encoding.md` R72). -/
def Alphabet.ofId (a : BitVec 3) : Option Alphabet :=
  match a.toNat with
  | 0 => some .base16
  | 1 => some .base16upper
  | 2 => some .base32
  | 3 => some .base32hex
  | 4 => some .base64
  | 5 => some .base64url
  | 6 => some .octal
  | _ => none

/-- The identifier A of an alphabet (`30_encoding.md` R72). -/
def Alphabet.id (a : Alphabet) : BitVec 3 :=
  match a with
  | .base16 => 0
  | .base16upper => 1
  | .base32 => 2
  | .base32hex => 3
  | .base64 => 4
  | .base64url => 5
  | .octal => 6

/-- The fields of a word: OP = [7:4], F = [3], A = [2:0] (`30_encoding.md` R71). -/
def Fields.ofWord (w : Byte) : Fields :=
  { op := w.extractLsb' 4 4, f := w.getLsbD 3, a := w.extractLsb' 0 3 }

/-- `w = OP*16 + F*8 + A` (`30_encoding.md` R71). -/
def Fields.toWord (x : Fields) : Byte :=
  BitVec.ofNat 8 (x.op.toNat * 16 + x.f.toNat * 8 + x.a.toNat)

/-- The command of a legal OP with its flag and alphabet (`30_encoding.md` R73). -/
def Instr.ofOp (op : Nat) (f : Bool) (a : Alphabet) : Option Instr :=
  match op with
  | 0x0 => some .nop
  | 0x1 => some (.pack a)
  | 0x2 => some (.unpack a)
  | 0x3 => some (.v2c a)
  | 0x4 => some (.c2v f a)
  | 0x5 => some (.pada f a)
  | 0x6 => some (.pads a)
  | 0x7 => some (.encode f a)
  | 0x8 => some (.decode a)
  | 0x9 => some (.geom a)
  | 0xA => some .xfer
  | _ => none

/-- Decoding of fields: the checks of R76 first, then the opcode map of R73. -/
def decodeFields (x : Fields) : Except IllegalWord Instr :=
  match x.illegal with
  | some r => .error r
  | none =>
    match Alphabet.ofId x.a with
    | none => .error .reservedAlphabet
    | some a =>
      match Instr.ofOp x.op.toNat x.f a with
      | none => .error .reservedOp
      | some i => .ok i

/-- Decoding of one command word, total on all 256 (`30_encoding.md` R76, R77). -/
def decodeWord (w : Byte) : Except IllegalWord Instr :=
  decodeFields (Fields.ofWord w)

/-- Why a sequence of bytes does not begin with a command. -/
inductive DecodeError where
  /-- There is no byte. -/
  | noWord
  /-- The first byte is an illegal word. -/
  | illegal (why : IllegalWord)
deriving DecidableEq, Repr

/-- Decoding of the first command of a byte sequence, with the bytes after it. -/
def decode (bytes : List Byte) : Except DecodeError (Instr × List Byte) :=
  match bytes with
  | [] => .error .noWord
  | w :: rest =>
    match decodeWord w with
    | .error r => .error (.illegal r)
    | .ok i => .ok (i, rest)

/-- The fields of a command (`30_encoding.md` R72 to R75). -/
def Instr.fields (i : Instr) : Fields :=
  match i with
  | .nop => { op := 0x0, f := false, a := 0 }
  | .pack a => { op := 0x1, f := false, a := a.id }
  | .unpack a => { op := 0x2, f := false, a := a.id }
  | .v2c a => { op := 0x3, f := false, a := a.id }
  | .c2v f a => { op := 0x4, f := f, a := a.id }
  | .pada f a => { op := 0x5, f := f, a := a.id }
  | .pads a => { op := 0x6, f := false, a := a.id }
  | .encode f a => { op := 0x7, f := f, a := a.id }
  | .decode a => { op := 0x8, f := false, a := a.id }
  | .geom a => { op := 0x9, f := false, a := a.id }
  | .xfer => { op := 0xA, f := false, a := 0 }

/-- The command is well formed: its fields pass the checks of R76. -/
def Instr.wellFormed (i : Instr) : Bool := i.fields.wellFormed

/-- The word of a command (`30_encoding.md` R71). -/
def encodeWord (i : Instr) : Byte := i.fields.toWord

/-- The words of a command: always one (`30_encoding.md` R70). -/
def encode (i : Instr) : List Byte := [encodeWord i]

/-- The bytes of a number of `nbits` bits, bit 0 the lowest bit of the first byte; at least one byte,
the bits above `nbits` zero. -/
def tableBytes (nbits w : Nat) : List Byte :=
  (List.range (max 1 ((nbits + 7) / 8))).map fun k =>
    BitVec.ofNat 8 ((w % 2 ^ nbits) >>> (8 * k))

/-- The command the decoder reads from a row of the opcode table with its bits given as a number. -/
def decodeTableWord (nbits w : Nat) : Option Instr :=
  match decode (tableBytes nbits w) with
  | .ok (i, []) => some i
  | .ok (_, _ :: _) => none
  | .error _ => none

end Sys2Proof
end

