-- ==== Sys2Proof/Config.lean ====
section
/-! DEFINITION. What an implementation of the BNPU fixes: the buffer capacity MCAP
(`00_scope.md` R10 (a), the spec's only open parameter, `93_implementation_defined.md` U8). -/

namespace Sys2Proof

/-- The configuration of one BNPU. MCAP is kept as its excess over the least capacity the spec
allows, so that 8 ≤ MCAP ≤ 65535 holds of every value of this type (`00_scope.md` R10 (a)). -/
structure Config where
  mcapOver8 : Fin 65528
deriving DecidableEq, Repr, Inhabited

/-- MCAP, the number of cells of each message buffer (`00_scope.md` R10 (a)). -/
def Config.mcap (c : Config) : Nat := c.mcapOver8.val + 8

/-- The configuration of the machine that comes out of reset. No value of it is known: the spec
leaves MCAP to the implementation (`92_eei_decisions.md` D3). DESIGN CHOICE (log entry 1), safe. -/
opaque Config.chosen : Config

end Sys2Proof
end

