-- ==== Sys2Proof/Machine/Memory.lean ====
section
/-! DEFINITION. One message buffer as plain data: the cells whose value is specified, as (index,
value) pairs with strictly rising indices (`20_memory.md` R50; `10_state.md` R24, R25, R29). An index
that is not listed has no value: the spec leaves it unspecified (`93_implementation_defined.md` U3,
U4; log entries 4 and 6). -/

namespace Sys2Proof.Machine

/-- The cells of a buffer whose value is specified. -/
abbrev Memory := List Host.Cell

/-- The canonical form: indices strictly rising. -/
abbrev Memory.wf (m : Memory) : Prop := List.Pairwise (fun c d => c.1 < d.1) m

/-- The value of cell `i`, `none` when it is unspecified. -/
def Memory.read (m : Memory) (i : Nat) : Option Byte :=
  match m with
  | [] => none
  | c :: rest => if c.1 = i then some c.2 else Memory.read rest i

/-- Store `v` in cell `i` (`MemWrite`, `00_scope.md` R14). -/
def Memory.write (m : Memory) (i : Nat) (v : Byte) : Memory :=
  match m with
  | [] => [(i, v)]
  | c :: rest =>
    if i < c.1 then (i, v) :: c :: rest
    else if c.1 = i then (i, v) :: rest
    else c :: Memory.write rest i v

/-- The buffer that holds exactly the sequence `xs`, its first element in cell `i`. -/
def Memory.ofSeqFrom (i : Nat) (xs : List Byte) : Memory :=
  match xs with
  | [] => []
  | x :: rest => (i, x) :: Memory.ofSeqFrom (i + 1) rest

/-- The buffer that holds exactly the sequence `xs`, element i in cell i (`20_memory.md` R50). -/
def Memory.ofSeq (xs : List Byte) : Memory := Memory.ofSeqFrom 0 xs

/-- The `n` cells from index `i`, `none` when one of them is unspecified. -/
def Memory.readFrom (m : Memory) (i n : Nat) : Option (List Byte) :=
  match n with
  | 0 => some []
  | k + 1 =>
    match m.read i with
    | none => none
    | some v =>
      match Memory.readFrom m (i + 1) k with
      | none => none
      | some rest => some (v :: rest)

/-- The sequence in cells 0 to n-1, `none` when one of them is unspecified. -/
def Memory.readSeq (m : Memory) (n : Nat) : Option (List Byte) := m.readFrom 0 n

end Sys2Proof.Machine
end

