-- ==== Sys2Proof/Machine/State.lean ====
section
/-! DEFINITION. The state of one BNPU (`10_state.md`), the host's accesses to it (`10_state.md` R26 to
R30) with reset (`70_reset_and_hazards.md` R230), and the reasons a step of the model stops. -/

namespace Sys2Proof.Machine

/-- The registers by number (`10_state.md` R22). `absent k` is register number 4 + k, which does not
exist (R30). -/
inductive Reg where
  | cmd
  | status
  | ilen
  | olen
  | absent (k : Nat)
deriving DecidableEq, Repr

/-- What the host can do to the BNPU (`10_state.md` R26 to R30), and reset (`70_reset_and_hazards.md`
R230). Register writes carry a value of the register's own width (R22: a register is transferred
whole). -/
inductive HostEvent where
  | writeCmd (w : Byte)
  | writeStatus (v : Byte)
  | writeIlen (v : Half)
  | writeOlen (v : Half)
  | writeAbsent (k : Nat) (v : Half)
  | readReg (r : Reg)
  | writeIbuf (i : Nat) (v : Byte)
  | writeObuf (i : Nat) (v : Byte)
  | readIbuf (i : Nat)
  | readObuf (i : Nat)
  | reset
deriving DecidableEq, Repr

/-- The state. `cmd`, `err`, `ilen`, `olen`, `ibuf` and `obuf` are the spec's (`10_state.md` R22 to
R25); `cfg`, `pending` and `answers` are the model's own (log entries 1, 2 and 3). -/
structure State where
  /-- The parameter MCAP (`00_scope.md` R10 (a)); no step writes it. -/
  cfg : Config
  /-- CMD, register 0 (`10_state.md` R22). -/
  cmd : Byte
  /-- STATUS.ERR, the only field of register 1; STATUS[7:3] is hardwired to zero (`10_state.md`
  R23). -/
  err : BitVec 3
  /-- ILEN, register 2. -/
  ilen : Half
  /-- OLEN, register 3. -/
  olen : Half
  /-- The specified cells of IBUF. -/
  ibuf : Memory
  /-- The specified cells of OBUF: the sequence OUT alone (`10_state.md` R25). -/
  obuf : Memory
  /-- The host's events still to come, the next one first. -/
  pending : List HostEvent
  /-- What the host's reads have returned, the newest first. -/
  answers : List Half
deriving DecidableEq, Repr

/-- Why the model stops with a fault. -/
inductive Fault where
  /-- A host read of a buffer cell of index ≥ MCAP, a cell that does not exist: the spec gives it no
  meaning (`10_state.md` R30, `93_implementation_defined.md` U5). Raised by `hostReadIbuf` and
  `hostReadObuf`. Safe: no claim follows about what such a read returns. -/
  | noSuchCell
deriving DecidableEq, Repr

/-- Why the model gives a step no meaning. -/
inductive Refusal where
  /-- An instruction that has no meaning yet. No arm of `exec` uses it. Safe. -/
  | notModelled (mnemonic : String)
  /-- A command reads an IBUF cell whose value is unspecified: "A model refuses such a command"
  (`70_reset_and_hazards.md` R235, `93_implementation_defined.md` U4). Raised by the commands that
  take IN. Safe. -/
  | unwrittenInputCell
  /-- A host read of a cell whose value is unspecified (`10_state.md` R29,
  `93_implementation_defined.md` U3, U4). Raised by `hostReadIbuf` and `hostReadObuf`. Safe. -/
  | unspecifiedCell
  /-- XFER in a state whose OBUF does not hold OLEN specified cells; no run reaches one (log entry
  11). Raised by `execXfer`. Safe. -/
  | unspecifiedResultCell
deriving DecidableEq, Repr

/-- The machine right after reset, no host access yet (`10_state.md` R33). -/
def State.reset : State :=
  { cfg := Config.chosen
    cmd := 0x00
    err := 0
    ilen := 0
    olen := 0
    ibuf := []
    obuf := []
    pending := []
    answers := [] }

end Sys2Proof.Machine
end

