-- ==== Sys2Proof/Machine/Flags.lean ====
section
/-! DEFINITION. The BNPU's only flag, STATUS.ERR: the error kinds, their codes, and how STATUS is
read and written (`10_state.md` R23, `60_exceptions.md` R200, R201). -/

namespace Sys2Proof.Machine

/-- The seven error kinds: the source's five and the shell's two (`60_exceptions.md` R200). -/
inductive ErrorKind where
  | outOfAlphabetCharacter
  | invalidGroupSize
  | invalidNTet
  | notCanonicalInput
  | noCorrespondingAlphabetCharacter
  | illegalCommand
  | capacityExceeded
deriving DecidableEq, Repr

/-- The code of a kind in STATUS.ERR (`60_exceptions.md` R200). -/
def ErrorKind.code (k : ErrorKind) : BitVec 3 :=
  match k with
  | .outOfAlphabetCharacter => 1
  | .invalidGroupSize => 2
  | .invalidNTet => 3
  | .notCanonicalInput => 4
  | .noCorrespondingAlphabetCharacter => 5
  | .illegalCommand => 6
  | .capacityExceeded => 7

/-- STATUS as the host reads it: ERR in bits [2:0], bits [7:3] zero (`10_state.md` R23). -/
def State.status (s : State) : Byte := s.err.setWidth 8

/-- `STATUS <- c`: ERR = c (`30_encoding.md` R78). -/
def State.setErr (s : State) (c : BitVec 3) : State := { s with err := c }

end Sys2Proof.Machine
end

