-- ==== Sys2Proof/Machine/Operands.lean ====
section
/-! DEFINITION. The operands of a command: the implicit input sequence IN, the result sequence OUT,
and the one-cell write of IBUF (`00_scope.md` R14; `30_encoding.md` R78). A command has no register
and no immediate operand; its explicit operands F and A are decoded in `Decode.lean`. -/

namespace Sys2Proof.Machine

/-- MCAP, the capacity of each buffer (`00_scope.md` R10 (a)). -/
def State.mcap (s : State) : Nat := s.cfg.mcap

/-- `IN = IBUF[0..ILEN)` (`00_scope.md` R14), `none` when one of its cells is unspecified. -/
def State.readIn (s : State) : Option (List Byte) := s.ibuf.readSeq s.ilen.toNat

/-- `OUT = OBUF[0..OLEN)`, `none` when one of its cells is unspecified. -/
def State.readOut (s : State) : Option (List Byte) := s.obuf.readSeq s.olen.toNat

/-- `OUT <- xs`: cells 0 to len-1 of OBUF and OLEN; every other OBUF cell becomes unspecified
(`00_scope.md` R14, `10_state.md` R25). -/
def State.setOut (s : State) (xs : List Byte) : State :=
  { s with obuf := Memory.ofSeq xs, olen := BitVec.ofNat 16 xs.length }

/-- OLEN <- 0, all of OBUF unspecified (`60_exceptions.md` R206). -/
def State.clearOut (s : State) : State := { s with obuf := [], olen := 0 }

/-- `CMD <- w` (`10_state.md` R26). -/
def State.storeCmd (s : State) (w : Byte) : State := { s with cmd := w }

/-- `ILEN <- v` (`10_state.md` R26). -/
def State.setIlen (s : State) (v : Half) : State := { s with ilen := v }

/-- `MemWrite(IBUF+i, 1, v)`: a cell of index ≥ MCAP does not exist and the write is ignored
(`10_state.md` R28, R30). -/
def State.writeIbufCell (s : State) (i : Nat) (v : Byte) : State :=
  if i < s.mcap then { s with ibuf := s.ibuf.write i v } else s

/-- `for i in 0..len(xs)-1: MemWrite(IBUF+start+i, 1, xs[i])` (`46_system.md` R191). -/
def State.writeIbufFrom (s : State) (start : Nat) (xs : List Byte) : State :=
  match xs with
  | [] => s
  | x :: rest => (s.writeIbufCell start x).writeIbufFrom (start + 1) rest

end Sys2Proof.Machine
end

