-- ==== Sys2Proof/Machine/Ops.lean ====
section
/-! DEFINITION. The shared operations of all commands: the execution template of `30_encoding.md` R78
and the effect of a failing command, the BNPU's "trap entry" (`60_exceptions.md` R206). There is no
return from it: nothing was entered (R210). -/

namespace Sys2Proof.Machine

/-- The outcome of one step. -/
abbrev Result := Host.Outcome State Fault Refusal

/-- The result of a component function: a sequence, or the kind it raises (`00_scope.md` R15). -/
abbrev Seq := Except ErrorKind (List Byte)

/-- `Fail(c)`: STATUS <- c, OLEN <- 0, OBUF unspecified, nothing else (`30_encoding.md` R78,
`60_exceptions.md` R206). -/
def fail (k : ErrorKind) (s : State) : State := (s.setErr k.code).clearOut

/-- STATUS <- 0, the end of every successful command (`30_encoding.md` R78). -/
def succeed (s : State) : State := s.setErr 0

/-- The end of a command whose function gave `r`: the result is stored if it fits in OBUF
(`30_encoding.md` R78, `60_exceptions.md` R205). -/
def finish (r : Seq) (s : State) : State :=
  match r with
  | .error k => fail k s
  | .ok xs => if s.mcap < xs.length then fail .capacityExceeded s else succeed (s.setOut xs)

/-- The template of the eight commands that take IN (`30_encoding.md` R78): CMD holds the word; ILEN
above MCAP is CapacityExceeded and no cell is read (`60_exceptions.md` R204); an error that ILEN alone
decides is reported before a cell is read (log entry 5); else the function is applied to IN, and a
command whose IN holds an unspecified cell is refused (`70_reset_and_hazards.md` R235). -/
def runOnInput (w : Byte) (lengthError : Nat → Option ErrorKind) (fn : List Byte → Seq)
    (s : State) : Result :=
  if s.mcap < s.ilen.toNat then .next (fail .capacityExceeded (s.storeCmd w))
  else
    match lengthError s.ilen.toNat with
    | some k => .next (fail k (s.storeCmd w))
    | none =>
      match s.readIn with
      | none => .refused .unwrittenInputCell
      | some xs => .next (finish (fn xs) (s.storeCmd w))

/-- No error is decided by the length of IN alone. -/
def noLengthError (_ : Nat) : Option ErrorKind := none

/-- A group of more than `limit` elements is InvalidGroupSize, tested on the length alone
(`42_packer.md` R128, `43_unpacker.md` R146). -/
def groupSizeError (limit k : Nat) : Option ErrorKind :=
  if limit < k then some .invalidGroupSize else none

/-- A result of `len k` elements, known from the length k of IN alone, that exceeds the capacity is
CapacityExceeded (`60_exceptions.md` R205). -/
def outputSizeError (cap : Nat) (len : Nat → Nat) (k : Nat) : Option ErrorKind :=
  if cap < len k then some .capacityExceeded else none

/-- An illegal word: CMD holds it and the command fails with IllegalCommand (`30_encoding.md` R78,
`60_exceptions.md` R203). -/
def execIllegal (w : Byte) (s : State) : Result :=
  .next (fail .illegalCommand (s.storeCmd w))

end Sys2Proof.Machine
end

