-- ==== Sys2Proof/Machine/Arithmetic.lean ====
section
/-! DEFINITION. Bit-width arithmetic and group geometry (`41_bitwidth.md`), and the command GEOM. -/

namespace Sys2Proof.Machine

/-- `pow2(x) = 2^x` (`41_bitwidth.md` R110; log entry 16 for exponents above 7). -/
def pow2 (x : Nat) : Nat := 2 ^ x

/-- Euclid's algorithm with a bound on the number of rounds (`41_bitwidth.md` R111). -/
def euclid (fuel a b : Nat) : Nat :=
  match fuel with
  | 0 => a
  | k + 1 => if b = 0 then a else euclid k b (a % b)

/-- `gcd(a, 0) = a`; `gcd(a, b) = gcd(b, a mod b)` (`41_bitwidth.md` R111): the second argument falls
at every round, so b rounds reach 0. -/
def euclidGcd (a b : Nat) : Nat := euclid b a b

/-- `lcm(a, b) = (a * b) div gcd(a, b)` (`41_bitwidth.md` R111). -/
def euclidLcm (a b : Nat) : Nat := (a * b) / euclidGcd a b

/-- `ceil(a/b) = (a + b - 1) div b` (`00_scope.md` R13). -/
def ceilDiv (a b : Nat) : Nat := (a + b - 1) / b

/-- n(A), the symbol width (`00_scope.md` R2, `30_encoding.md` R72). -/
def symbolBits (a : Alphabet) : Nat :=
  match a with
  | .base16 => 4
  | .base16upper => 4
  | .base32 => 5
  | .base32hex => 5
  | .base64 => 6
  | .base64url => 6
  | .octal => 3

/-- PG(A), the pad group size, 0 for an alphabet without padding (`44_padder.md` R155). -/
def padGroup (a : Alphabet) : Nat :=
  match a with
  | .base16 => 0
  | .base16upper => 0
  | .base32 => 8
  | .base32hex => 8
  | .base64 => 4
  | .base64url => 4
  | .octal => 0

/-- l = lcm(8, n), the group length in bits (`41_bitwidth.md` R114). -/
def groupBits (n : Nat) : Nat := euclidLcm 8 n

/-- l/8, the bytes of a full group (`41_bitwidth.md` R114). -/
def groupBytes (n : Nat) : Nat := groupBits n / 8

/-- l/n, the symbols of a full group (`41_bitwidth.md` R114). -/
def groupSyms (n : Nat) : Nat := groupBits n / n

/-- `SymCount(n, k) = ceil(8k / n)` (`41_bitwidth.md` R115). -/
def symCount (n k : Nat) : Nat := ceilDiv (8 * k) n

/-- `ByteCount(n, m) = floor(m n / 8)` (`41_bitwidth.md` R115). -/
def byteCount (n m : Nat) : Nat := m * n / 8

/-- `Trail(n, m) = m n - 8 ByteCount(n, m)` (`41_bitwidth.md` R115). -/
def trail (n m : Nat) : Nat := m * n - 8 * byteCount n m

/-- `Geom(A) = [n(A), l/8, l/n, PG(A)]` (`41_bitwidth.md` R116). -/
def geom (a : Alphabet) : List Byte :=
  [BitVec.ofNat 8 (symbolBits a), BitVec.ofNat 8 (groupBytes (symbolBits a)),
    BitVec.ofNat 8 (groupSyms (symbolBits a)), BitVec.ofNat 8 (padGroup a)]

/-- GEOM: OUT <- Geom(A), STATUS <- 0; ILEN is not checked and no cell is read (`41_bitwidth.md`
R116). -/
def execGeom (a : Alphabet) (s : State) : Result :=
  .next (succeed ((s.storeCmd (encodeWord (.geom a))).setOut (geom a)))

end Sys2Proof.Machine
end

