-- ==== Sys2Proof/Machine/Lookup.lean ====
section
/-! DEFINITION. The alphabet lookup table and the commands V2C and C2V (`40_alphabet.md`). The
characters are those of R91, which the spec supplies from general knowledge (PRESUMED, log entry 8). -/

namespace Sys2Proof.Machine

/-- The digits `0` to `9` (`40_alphabet.md` R92). -/
def digits : List Byte := [0x30, 0x31, 0x32, 0x33, 0x34, 0x35, 0x36, 0x37, 0x38, 0x39]

/-- The letters `A` to `P`. -/
def upperAtoP : List Byte :=
  [0x41, 0x42, 0x43, 0x44, 0x45, 0x46, 0x47, 0x48, 0x49, 0x4A, 0x4B, 0x4C, 0x4D, 0x4E, 0x4F, 0x50]

/-- The letters `Q` to `Z`. -/
def upperQtoZ : List Byte := [0x51, 0x52, 0x53, 0x54, 0x55, 0x56, 0x57, 0x58, 0x59, 0x5A]

/-- The letters `a` to `f`. -/
def lowerAtoF : List Byte := [0x61, 0x62, 0x63, 0x64, 0x65, 0x66]

/-- The letters `g` to `v`. -/
def lowerGtoV : List Byte :=
  [0x67, 0x68, 0x69, 0x6A, 0x6B, 0x6C, 0x6D, 0x6E, 0x6F, 0x70, 0x71, 0x72, 0x73, 0x74, 0x75, 0x76]

/-- The letters `w` to `z`. -/
def lowerWtoZ : List Byte := [0x77, 0x78, 0x79, 0x7A]

/-- The characters of base64 and base64url for the values 0 to 61 (`40_alphabet.md` R91). -/
def base64Common : List Byte :=
  upperAtoP ++ upperQtoZ ++ lowerAtoF ++ lowerGtoV ++ lowerWtoZ ++ digits

/-- `TAB(A)`, the characters of an alphabet in the order of their values (`40_alphabet.md` R91). -/
def table (a : Alphabet) : List Byte :=
  match a with
  | .base16 => digits ++ lowerAtoF
  | .base16upper => digits ++ upperAtoP.take 6
  | .base32 => upperAtoP ++ upperQtoZ ++ [0x32, 0x33, 0x34, 0x35, 0x36, 0x37]
  | .base32hex => digits ++ upperAtoP ++ [0x51, 0x52, 0x53, 0x54, 0x55, 0x56]
  | .base64 => base64Common ++ [0x2B, 0x2F]
  | .base64url => base64Common ++ [0x2D, 0x5F]
  | .octal => digits.take 8

/-- The pad character `=` (`44_padder.md` R156, `40_alphabet.md` R92). -/
def padChar : Byte := 0x3D

/-- The value C2V gives for an allowed pad character (`40_alphabet.md` R97). -/
def padMarker : Byte := 0xFF

/-- The first place of `c` in a character list. -/
def indexOf (c : Byte) (tab : List Byte) : Option Nat :=
  match tab with
  | [] => none
  | d :: rest =>
    if d = c then some 0
    else
      match indexOf c rest with
      | none => none
      | some v => some (v + 1)

/-- `ValueToChar1(A, v)`: a value at or above the alphabet's size has no character
(`40_alphabet.md` R94). -/
def valueToChar1 (a : Alphabet) (v : Byte) : Except ErrorKind Byte :=
  match (table a)[v.toNat]? with
  | none => .error .noCorrespondingAlphabetCharacter
  | some c => .ok c

/-- `CharToValue1(A, F, c)` (`40_alphabet.md` R94, R97). -/
def charToValue1 (a : Alphabet) (f : Bool) (c : Byte) : Except ErrorKind Byte :=
  match indexOf c (table a) with
  | some v => .ok (BitVec.ofNat 8 v)
  | none => if c = padChar ∧ f = true then .ok padMarker else .error .outOfAlphabetCharacter

/-- One element after the other, the first error decides (`40_alphabet.md` R95, R96). -/
def mapCells (fn : Byte → Except ErrorKind Byte) (xs : List Byte) : Seq :=
  match xs with
  | [] => .ok []
  | x :: rest =>
    match fn x with
    | .error k => .error k
    | .ok y =>
      match mapCells fn rest with
      | .error k => .error k
      | .ok ys => .ok (y :: ys)

/-- `ValueToChar(A, s)` (`40_alphabet.md` R95). -/
def valueToChar (a : Alphabet) (xs : List Byte) : Seq := mapCells (valueToChar1 a) xs

/-- `CharToValue(A, F, t)` (`40_alphabet.md` R96). -/
def charToValue (a : Alphabet) (f : Bool) (xs : List Byte) : Seq := mapCells (charToValue1 a f) xs

/-- V2C (`40_alphabet.md` R95). -/
def execV2c (a : Alphabet) (s : State) : Result :=
  runOnInput (encodeWord (.v2c a)) noLengthError (valueToChar a) s

/-- C2V (`40_alphabet.md` R96). -/
def execC2v (f : Bool) (a : Alphabet) (s : State) : Result :=
  runOnInput (encodeWord (.c2v f a)) noLengthError (charToValue a f) s

end Sys2Proof.Machine
end

