-- ==== Sys2Proof/Machine/Padder.lean ====
section
/-! DEFINITION. The Padder and the commands PADA and PADS (`44_padder.md`). -/

namespace Sys2Proof.Machine

/-- The number of pad characters appended to a text of `k` characters (`44_padder.md` R158). -/
def padCount (a : Alphabet) (f : Bool) (k : Nat) : Nat :=
  if f = true ∧ padGroup a ≠ 0 then (padGroup a - k % padGroup a) % padGroup a else 0

/-- `PadAppend(A, F, t)` (`44_padder.md` R158). -/
def padAppend (a : Alphabet) (f : Bool) (t : List Byte) : Seq :=
  .ok (t ++ List.replicate (padCount a f t.length) padChar)

/-- The length of `PadAppend(A, F, t)`, a function of the length of t alone (`60_exceptions.md`
R205). -/
def paddedLength (a : Alphabet) (f : Bool) (k : Nat) : Nat := k + padCount a f k

/-- `PadStrip(t)`: the characters before the first pad character, if only pad characters follow it
(`44_padder.md` R159). It takes no alphabet (R157). -/
def padStrip (t : List Byte) : Seq :=
  if (t.dropWhile (· != padChar)).any (· != padChar) then .error .notCanonicalInput
  else .ok (t.takeWhile (· != padChar))

/-- PADA (`44_padder.md` R158); a padded length above MCAP is known from ILEN alone
(`60_exceptions.md` R205). -/
def execPada (f : Bool) (a : Alphabet) (s : State) : Result :=
  runOnInput (encodeWord (.pada f a)) (outputSizeError s.mcap (paddedLength a f))
    (padAppend a f) s

/-- PADS (`44_padder.md` R159). -/
def execPads (a : Alphabet) (s : State) : Result :=
  runOnInput (encodeWord (.pads a)) noLengthError padStrip s

end Sys2Proof.Machine
end

