-- ==== Sys2Proof/Machine/Packer.lean ====
section
/-! DEFINITION. The Packer and the command PACK (`42_packer.md`). -/

namespace Sys2Proof.Machine

/-- The number whose digits to the base `base` are `ds`, the first the most significant: the sum of
`42_packer.md` R127 and `43_unpacker.md` R142 (bit order `20_memory.md` R52). -/
def positional (base : Nat) (ds : List Nat) : Nat :=
  match ds with
  | [] => 0
  | d :: rest => d * base ^ rest.length + positional base rest

/-- A group with zeros appended up to `size` elements (`42_packer.md` R126, `43_unpacker.md` R142). -/
def zeroPad (size : Nat) (g : List Byte) : List Nat :=
  g.map BitVec.toNat ++ List.replicate (size - g.length) 0

/-- `full`: the l/n symbols of the zero-padded group `p` of l/8 bytes (`42_packer.md` R127). -/
def packFull (n : Nat) (p : List Nat) : List Nat :=
  (List.range (groupSyms n)).map fun j =>
    (positional (2 ^ 8) p >>> (groupBits n - n * (j + 1))) &&& (pow2 n - 1)

/-- `Pack(n, g)` (`42_packer.md` R127). -/
def pack (n : Nat) (g : List Byte) : Seq :=
  if groupBytes n < g.length then .error .invalidGroupSize
  else
    .ok (((packFull n (zeroPad (groupBytes n) g)).take (symCount n g.length)).map
      (BitVec.ofNat 8))

/-- PACK (`42_packer.md` R130); a group too long is refused before a byte is read (R128). -/
def execPack (a : Alphabet) (s : State) : Result :=
  runOnInput (encodeWord (.pack a)) (groupSizeError (groupBytes (symbolBits a)))
    (pack (symbolBits a)) s

end Sys2Proof.Machine
end

