-- ==== Sys2Proof/Machine/Unpacker.lean ====
section
/-! DEFINITION. The Unpacker with its canonical-input check, and the command UNPACK
(`43_unpacker.md`). -/

namespace Sys2Proof.Machine

/-- `bytes`: the l/8 bytes of the zero-padded group `q` of l/n symbols (`43_unpacker.md` R142). -/
def unpackFull (n : Nat) (q : List Nat) : List Nat :=
  (List.range (groupBytes n)).map fun i =>
    (positional (2 ^ n) q >>> (8 * (groupBytes n - 1 - i))) &&& 0xFF

/-- `Unpack(n, s)`: group size, then range, then the trailing bits (`43_unpacker.md` R142, R143,
R146). -/
def unpack (n : Nat) (g : List Byte) : Seq :=
  if groupSyms n < g.length then .error .invalidGroupSize
  else if g.any (fun v => decide (pow2 n ≤ v.toNat)) then .error .invalidNTet
  else if ((unpackFull n (zeroPad (groupSyms n) g)).drop (byteCount n g.length)).any (· != 0) then
    .error .notCanonicalInput
  else
    .ok (((unpackFull n (zeroPad (groupSyms n) g)).take (byteCount n g.length)).map
      (BitVec.ofNat 8))

/-- UNPACK (`43_unpacker.md` R145); the group size is tested first, on the length alone (R146). -/
def execUnpack (a : Alphabet) (s : State) : Result :=
  runOnInput (encodeWord (.unpack a)) (groupSizeError (groupSyms (symbolBits a)))
    (unpack (symbolBits a)) s

end Sys2Proof.Machine
end

