-- ==== Sys2Proof/Machine/Codec.lean ====
section
/-! DEFINITION. The Codec Facade and the commands ENCODE and DECODE (`45_codec.md`). -/

namespace Sys2Proof.Machine

/-- `Chunks`, at most `count` of them (`45_codec.md` R171). -/
def chunksUpTo (size count : Nat) (xs : List Byte) : List (List Byte) :=
  match count with
  | 0 => []
  | k + 1 =>
    match xs with
    | [] => []
    | x :: rest => (x :: rest).take size :: chunksUpTo size k ((x :: rest).drop size)

/-- `Chunks(s, g)` for g ≥ 1: consecutive groups of g elements, the last of 1 to g; none for the empty
sequence (`45_codec.md` R171). -/
def chunks (size : Nat) (xs : List Byte) : List (List Byte) := chunksUpTo size xs.length xs

/-- The results of `fn` on all groups, in order, concatenated; the first error decides
(`45_codec.md` R172, R174). -/
def concatGroups (fn : List Byte → Seq) (groups : List (List Byte)) : Seq :=
  match groups with
  | [] => .ok []
  | g :: rest =>
    match fn g with
    | .error k => .error k
    | .ok ys =>
      match concatGroups fn rest with
      | .error k => .error k
      | .ok zs => .ok (ys ++ zs)

/-- One stage after another (`00_scope.md` R15: `let s = F(...)`). -/
def andThen (r : Seq) (fn : List Byte → Seq) : Seq :=
  match r with
  | .error k => .error k
  | .ok xs => fn xs

/-- The symbols of a whole message: Pack on every chunk (`45_codec.md` R172). -/
def packMessage (n : Nat) (b : List Byte) : Seq :=
  concatGroups (pack n) (chunks (groupBytes n) b)

/-- The bytes of a whole symbol sequence: Unpack on every chunk (`45_codec.md` R174). -/
def unpackMessage (n : Nat) (syms : List Byte) : Seq :=
  concatGroups (unpack n) (chunks (groupSyms n) syms)

/-- `Encode(A, F, b)` (`45_codec.md` R172). -/
def encodeText (a : Alphabet) (f : Bool) (b : List Byte) : Seq :=
  andThen (packMessage (symbolBits a) b) fun syms =>
    andThen (valueToChar a syms) fun chars => padAppend a f chars

/-- `Decode(A, t)` (`45_codec.md` R174). -/
def decodeText (a : Alphabet) (t : List Byte) : Seq :=
  andThen (padStrip t) fun u =>
    andThen (charToValue a false u) fun syms => unpackMessage (symbolBits a) syms

/-- The length of `Encode(A, F, b)`, a function of A, F and the length of b alone (`45_codec.md`
R173, `60_exceptions.md` R205). -/
def encodedLength (a : Alphabet) (f : Bool) (k : Nat) : Nat :=
  paddedLength a f (symCount (symbolBits a) k)

/-- ENCODE (`45_codec.md` R172); a text longer than MCAP is known from ILEN alone
(`60_exceptions.md` R205). -/
def execEncode (f : Bool) (a : Alphabet) (s : State) : Result :=
  runOnInput (encodeWord (.encode f a)) (outputSizeError s.mcap (encodedLength a f))
    (encodeText a f) s

/-- DECODE (`45_codec.md` R175). -/
def execDecode (a : Alphabet) (s : State) : Result :=
  runOnInput (encodeWord (.decode a)) noLengthError (decodeText a) s

end Sys2Proof.Machine
end

