-- ==== Sys2Proof/Machine/System.lean ====
section
/-! DEFINITION. The housekeeping commands NOP and XFER (`46_system.md`). -/

namespace Sys2Proof.Machine

/-- NOP: CMD <- 0x00, STATUS <- 0, nothing else (`46_system.md` R190). -/
def execNop (s : State) : Result := .next (succeed (s.storeCmd (encodeWord .nop)))

/-- XFER: IBUF[0..OLEN) <- OBUF[0..OLEN), ILEN <- OLEN, STATUS <- 0; OBUF and OLEN stay
(`46_system.md` R191). In a state whose OBUF does not hold OLEN specified cells, which no run reaches,
it is refused (log entry 11). -/
def execXfer (s : State) : Result :=
  match s.readOut with
  | none => .refused .unspecifiedResultCell
  | some xs =>
    .next (succeed (((s.storeCmd (encodeWord .xfer)).writeIbufFrom 0 xs).setIlen s.olen))

end Sys2Proof.Machine
end

