-- ==== Sys2Proof/Machine/Dispatch.lean ====
section
/-! DEFINITION. One arm per command of `30_encoding.md` R73, each one call of its meaning. `exec i` is
`Exec(w)` of R78 for the word w of the command i. -/

namespace Sys2Proof.Machine

def exec (i : Instr) (s : State) : Host.Outcome State Fault Refusal :=
  match i with
  | .nop => Sys2Proof.Machine.execNop s
  | .pack a => Sys2Proof.Machine.execPack a s
  | .unpack a => Sys2Proof.Machine.execUnpack a s
  | .v2c a => Sys2Proof.Machine.execV2c a s
  | .c2v f a => Sys2Proof.Machine.execC2v f a s
  | .pada f a => Sys2Proof.Machine.execPada f a s
  | .pads a => Sys2Proof.Machine.execPads a s
  | .encode f a => Sys2Proof.Machine.execEncode f a s
  | .decode a => Sys2Proof.Machine.execDecode a s
  | .geom a => Sys2Proof.Machine.execGeom a s
  | .xfer => Sys2Proof.Machine.execXfer s

end Sys2Proof.Machine
end

