-- ==== Sys2Proof/Machine/HostPort.lean ====
section
/-! DEFINITION. The host's accesses to the registers and buffers (`10_state.md` R26 to R30) and reset
(`70_reset_and_hazards.md` R230). None of the ignored accesses raises an error or changes STATUS
(R30). -/

namespace Sys2Proof.Machine

/-- The register of a number; 4 and above do not exist (`10_state.md` R22, R30). -/
def Reg.ofNumber (n : Nat) : Reg :=
  match n with
  | 0 => .cmd
  | 1 => .status
  | 2 => .ilen
  | 3 => .olen
  | k + 4 => .absent k

/-- The current value of a register; an absent one reads 0 (`10_state.md` R27, R30). An 8-bit register
is answered as the same number in 16 bits (log entry 15). -/
def State.readRegister (s : State) (r : Reg) : Half :=
  match r with
  | .cmd => s.cmd.setWidth 16
  | .status => s.status.setWidth 16
  | .ilen => s.ilen
  | .olen => s.olen
  | .absent _ => 0

/-- The host receives a value (log entry 3). -/
def State.answer (s : State) (v : Half) : State := { s with answers := v :: s.answers }

/-- Writing CMD stores the word and executes it, in one transition (`10_state.md` R26;
`30_encoding.md` R78). `exec` stores the word itself: it is the word of the command (R78). -/
def hostWriteCmd (w : Byte) (s : State) : Result :=
  match decodeWord w with
  | .error _ => execIllegal w s
  | .ok i => exec i s

/-- Reading a register changes nothing (`10_state.md` R27). -/
def hostReadReg (r : Reg) (s : State) : Result := .next (s.answer (s.readRegister r))

/-- Answer a host read of a cell: a cell ≥ MCAP does not exist (`93_implementation_defined.md` U5), a
cell whose value is unspecified is refused (U3, U4). -/
def answerCell (i : Nat) (v : Option Byte) (s : State) : Result :=
  if s.mcap ≤ i then .fault .noSuchCell
  else
    match v with
    | none => .refused .unspecifiedCell
    | some b => .next (s.answer (b.setWidth 16))

/-- `MemRead(IBUF+i, 1)` by the host (`10_state.md` R29). -/
def hostReadIbuf (i : Nat) (s : State) : Result := answerCell i (s.ibuf.read i) s

/-- `MemRead(OBUF+i, 1)` by the host: a cell of index ≥ OLEN is unspecified (`10_state.md` R29). -/
def hostReadObuf (i : Nat) (s : State) : Result :=
  answerCell i (if i < s.olen.toNat then s.obuf.read i else none) s

/-- Reset: the registers take the values of `10_state.md` R33 and every cell of both buffers becomes
unspecified (`70_reset_and_hazards.md` R230). The configuration, the host's coming events and the
host's answers are no state of the BNPU and stay (log entry 12). -/
def hostReset (s : State) : State :=
  { State.reset with cfg := s.cfg, pending := s.pending, answers := s.answers }

/-- One event (`10_state.md` R26 to R30, `70_reset_and_hazards.md` R230). -/
def hostEvent (e : HostEvent) (s : State) : Result :=
  match e with
  | .writeCmd w => hostWriteCmd w s
  | .writeStatus _ => .next s
  | .writeIlen v => .next (s.setIlen v)
  | .writeOlen _ => .next s
  | .writeAbsent _ _ => .next s
  | .readReg r => hostReadReg r s
  | .writeIbuf i v => .next (s.writeIbufCell i v)
  | .writeObuf _ _ => .next s
  | .readIbuf i => hostReadIbuf i s
  | .readObuf i => hostReadObuf i s
  | .reset => .next (hostReset s)

end Sys2Proof.Machine
end

