-- ==== Sys2Proof/Machine/Step.lean ====
section
/-! DEFINITION. One step: the host's next event takes full effect (`20_memory.md` R58). There is no
program counter and no fetch (`10_state.md` R21, `20_memory.md` R60): the command that executes is the
one the host writes to CMD. -/

namespace Sys2Proof.Machine

/-- With the next event taken from the front. -/
def State.withPending (s : State) (es : List HostEvent) : State := { s with pending := es }

/-- One step. With no event to come the BNPU is idle and keeps all its state (`60_exceptions.md`
R221). -/
def step (s : State) : Host.Outcome State Fault Refusal :=
  match s.pending with
  | [] => .next s
  | e :: rest => hostEvent e (s.withPending rest)

/-- The host's next access is the write of this word to CMD (log entry 2). -/
def State.withFetchWord (s : State) (nbits w : Nat) : State :=
  s.withPending (.writeCmd (BitVec.ofNat 8 (w % 2 ^ nbits)) :: s.pending)

end Sys2Proof.Machine
end

