-- ==== Sys2Proof/Machine/Cursor.lean ====
section
/-! DEFINITION. The source's sliding-cursor algorithms in the spec's reference form (`42_packer.md`
R129, `43_unpacker.md` R144). No command calls them: `pack` and `unpack` are the definitions (R127,
R142), and these compute the same thing. -/

namespace Sys2Proof.Machine

/-- The loop of `PackCursor`: `count` symbols are still to be drawn, `cb` carry bits are held in
`carry`, `rest` are the bytes not loaded yet (`42_packer.md` R129). -/
def packCursorLoop (n count carry cb : Nat) (rest : List Nat) : List Nat :=
  match count with
  | 0 => []
  | k + 1 =>
    let loaded := if cb < n then (carry <<< 8) ||| rest.headD 0 else carry
    let held := if cb < n then cb + 8 else cb
    let left := if cb < n then rest.tail else rest
    (loaded >>> (held - n)) ::
      packCursorLoop n k (loaded &&& (pow2 (held - n) - 1)) (held - n) left

/-- `PackCursor(n, p)` (`42_packer.md` R129). -/
def packCursor (n : Nat) (p : List Nat) : List Nat := packCursorLoop n (groupSyms n) 0 0 p

/-- The loop of `UnpackCursor`: `ab` bits are held in `acc`, `q` are the symbols not taken yet
(`43_unpacker.md` R144). -/
def unpackCursorLoop (n acc ab : Nat) (q : List Nat) : List Nat :=
  match q with
  | [] => []
  | v :: rest =>
    let acc' := (acc <<< n) ||| v
    let ab' := ab + n
    if 8 ≤ ab' then
      (acc' >>> (ab' - 8)) ::
        unpackCursorLoop n (acc' &&& (pow2 (ab' - 8) - 1)) (ab' - 8) rest
    else unpackCursorLoop n acc' ab' rest

/-- `UnpackCursor(n, q)` (`43_unpacker.md` R144). -/
def unpackCursor (n : Nat) (q : List Nat) : List Nat := unpackCursorLoop n 0 0 q

end Sys2Proof.Machine
end

