-- ==== Sys2Proof/Safety.lean ====
section
/-! DEFINITION. What counts as a good state and a safe run, in the terms the claims use. -/

namespace Sys2Proof.Machine

/-- A good state: both buffers in canonical form inside their capacity, OBUF holding exactly the
sequence OUT of OLEN cells (`10_state.md` R25), and OLEN ≤ MCAP (`60_exceptions.md` R205). -/
abbrev State.wf (s : State) : Prop :=
  s.ibuf.wf ∧ (∀ c ∈ s.ibuf, c.1 < s.mcap) ∧
    s.obuf.wf ∧ s.obuf.map Prod.fst = List.range s.olen.toNat ∧ s.olen.toNat ≤ s.mcap

/-- The commands that take IN: all but NOP, GEOM and XFER (`60_exceptions.md` R204). -/
def takesInput (i : Instr) : Bool :=
  match i with
  | .nop => false
  | .pack _ => true
  | .unpack _ => true
  | .v2c _ => true
  | .c2v _ _ => true
  | .pada _ _ => true
  | .pads _ => true
  | .encode _ _ => true
  | .decode _ => true
  | .geom _ => false
  | .xfer => false

/-- The input sequence is in place: it fits in IBUF and every cell of it has been written
(`70_reset_and_hazards.md` R234). -/
def State.inputReady (s : State) : Bool := decide (s.ilen.toNat ≤ s.mcap) && s.readIn.isSome

/-- The host's duties for its next event: no read of a cell that does not exist or is unspecified
(`10_state.md` R30, `70_reset_and_hazards.md` R240), and no command on an input that was not written
(R234). -/
def dutyMet (e : HostEvent) (s : State) : Bool :=
  match e with
  | .writeCmd w =>
    match decodeWord w with
    | .error _ => true
    | .ok i => !takesInput i || s.inputReady
  | .readIbuf i => decide (i < s.mcap) && (s.ibuf.read i).isSome
  | .readObuf i => decide (i < s.olen.toNat)
  | .writeStatus _ => true
  | .writeIlen _ => true
  | .writeOlen _ => true
  | .writeAbsent _ _ => true
  | .readReg _ => true
  | .writeIbuf _ _ => true
  | .writeObuf _ _ => true
  | .reset => true

/-- The step makes no stop: it answers a next state. -/
def State.goesOn (s : State) : Prop := ∃ t, step s = .next t

end Sys2Proof.Machine
end

