-- ==== Sys2Proof/Certificates/Slice0/Obligations.lean ====
section
/-! DEFINITION. The statements for the provers. `Claims` holds the words they are written in: the
input sequence of a state, how a command ends, and the bit string a sequence spells. -/

open Sys2Proof Sys2Proof.Machine

namespace Sys2Proof.Claims

/-- `IN = xs`: ILEN is the length of xs, within MCAP, and cell i holds element i (`00_scope.md` R14,
`20_memory.md` R50). -/
abbrev InputIs (s : State) (xs : List Byte) : Prop :=
  s.ilen.toNat = xs.length ∧ xs.length ≤ s.mcap ∧ ∀ i < xs.length, s.ibuf.read i = xs[i]?

/-- State t is how a command with word w ends that started in s with code c and result `out`: CMD,
STATUS, OLEN and OBUF as said, and everything else (ILEN, every IBUF cell, the configuration, the
host's coming events and answers) as in s. -/
abbrev Ends (s : State) (w : Byte) (c : BitVec 3) (out : List Byte) (t : State) : Prop :=
  t.cmd = w ∧ t.err = c ∧ t.olen.toNat = out.length ∧ (∀ i, t.obuf.read i = out[i]?) ∧
    t.ilen = s.ilen ∧ (∀ i, t.ibuf.read i = s.ibuf.read i) ∧
    t.cfg = s.cfg ∧ t.pending = s.pending ∧ t.answers = s.answers

/-- The command completes: it answers a next state, and that state is `Ends`. -/
abbrev Completes (i : Instr) (s : State) (w : Byte) (c : BitVec 3) (out : List Byte) : Prop :=
  ∃ t, exec i s = .next t ∧ Ends s w c out t

/-- The n low bits of x, the most significant first. -/
def bits (n x : Nat) : List Bool := (List.range n).map fun i => x.testBit (n - 1 - i)

/-- The elements of xs laid end to end, n bits each, most significant bit first (`42_packer.md` R127,
`43_unpacker.md` R142, in words). -/
def bitString (n : Nat) (xs : List Byte) : List Bool := xs.flatMap fun x => bits n x.toNat

/-- The word is no command. -/
abbrev Illegal (w : Byte) : Prop := ∃ r, decodeWord w = .error r

/-- The number of words that decode to a command with the property p. -/
def countWords (p : Instr → Bool) : Nat :=
  ((List.range 256).filter fun w =>
    match decodeWord (BitVec.ofNat 8 w) with
    | .ok i => p i
    | .error _ => false).length

/-- The symbol widths of the BNPU (`00_scope.md` R2). -/
abbrev Width (n : Nat) : Prop := n = 3 ∨ n = 4 ∨ n = 5 ∨ n = 6

/-- A last group of `r` pad characters brings k characters to a multiple of PG, where padding applies
(`44_padder.md` R158). -/
abbrev PadRun (a : Alphabet) (f : Bool) (k r : Nat) : Prop :=
  if f = true ∧ padGroup a ≠ 0 then r < padGroup a ∧ padGroup a ∣ k + r else r = 0

/-- xs is u followed by an interrupted padding (`44_padder.md` R159). -/
abbrev Interrupted (xs : List Byte) : Prop :=
  ∃ u v, xs = u ++ 0x3D :: v ∧ 0x3D ∉ u ∧ ∃ c ∈ v, c ≠ 0x3D

/-- The commands one after the other, stopping after the first that fails; none when one is
refused. -/
def runStopping (is : List Instr) (s : State) : Option State :=
  match is with
  | [] => some s
  | i :: rest =>
    match exec i s with
    | .next t => if t.err = 0 then runStopping rest t else some t
    | .fault _ => none
    | .refused _ => none

/-- The commands one after the other, whatever their codes; none when one is refused. -/
def runAll (is : List Instr) (s : State) : Option State :=
  match is with
  | [] => some s
  | i :: rest =>
    match exec i s with
    | .next t => runAll rest t
    | .fault _ => none
    | .refused _ => none

end Sys2Proof.Claims

open Sys2Proof.Claims

/-! ## Encoding -/

/-- The words of the spec's syntax examples (`30_encoding.md` R80), and one word of each remaining
command, decode to the commands they stand for. -/
def Obligations.SpecExampleWordsDecode : Prop :=
  decodeWord 0x7C = .ok (.encode true .base64) ∧ decodeWord 0x74 = .ok (.encode false .base64) ∧
    decodeWord 0x82 = .ok (.decode .base32) ∧ decodeWord 0x16 = .ok (.pack .octal) ∧
    decodeWord 0x4D = .ok (.c2v true .base64url) ∧ decodeWord 0x00 = .ok .nop ∧
    decodeWord 0xA0 = .ok .xfer ∧ decodeWord 0x24 = .ok (.unpack .base64) ∧
    decodeWord 0x34 = .ok (.v2c .base64) ∧ decodeWord 0x5A = .ok (.pada true .base32) ∧
    decodeWord 0x64 = .ok (.pads .base64) ∧ decodeWord 0x92 = .ok (.geom .base32)

/-- Decoding and encoding agree: every command, whatever bytes follow its word, decodes back to itself;
every legal word is the word of the command it decodes to; and a command's word is
OP*16 + F*8 + A (`30_encoding.md` R71). -/
def Obligations.DecodeAndEncodeAgree : Prop :=
  (∀ (i : Instr) (rest : List Byte), decode (encode i ++ rest) = .ok (i, rest)) ∧
    (∀ (w : Byte) (i : Instr), decodeWord w = .ok i → encodeWord i = w) ∧
    (∀ i : Instr, i.wellFormed = true ∧
      (encodeWord i).toNat = i.fields.op.toNat * 16 + i.fields.f.toNat * 8 + i.fields.a.toNat)

/-- `30_encoding.md` R76 and `60_exceptions.md` R203: which words are illegal, what an illegal word
does in every state (no cell is read: it does so whatever the buffers hold), and how many words are
legal. -/
def Obligations.IllegalWordsFailWithCode6 : Prop :=
  (∀ w : Byte, Illegal w ↔
    0xB ≤ w.toNat / 16 ∨
    (1 ≤ w.toNat / 16 ∧ w.toNat / 16 ≤ 9 ∧ w.toNat % 8 = 7) ∨
    ((w.toNat / 16 = 0 ∨ w.toNat / 16 = 0xA) ∧ w.toNat % 8 ≠ 0) ∨
    (w.toNat / 8 % 2 = 1 ∧ w.toNat / 16 ≠ 4 ∧ w.toNat / 16 ≠ 5 ∧ w.toNat / 16 ≠ 7)) ∧
    (∀ (w : Byte) (s : State), Illegal w →
      ∃ t, hostEvent (.writeCmd w) s = .next t ∧ Ends s w 6 [] t) ∧
    countWords (fun _ => true) = 86 ∧
    countWords (fun i => i matches .nop) = 1 ∧ countWords (fun i => i matches .xfer) = 1 ∧
    countWords (fun i => i matches .pack _) = 7 ∧ countWords (fun i => i matches .unpack _) = 7 ∧
    countWords (fun i => i matches .v2c _) = 7 ∧ countWords (fun i => i matches .pads _) = 7 ∧
    countWords (fun i => i matches .decode _) = 7 ∧ countWords (fun i => i matches .geom _) = 7 ∧
    countWords (fun i => i matches .c2v _ _) = 14 ∧
    countWords (fun i => i matches .pada _ _) = 14 ∧
    countWords (fun i => i matches .encode _ _) = 14

/-! ## Steps and host accesses -/

/-- A step performs the host's next event; with none to come it is idle (`60_exceptions.md` R221). That
the coming events stand in the state is the model's own (log entry 2). -/
def Obligations.StepPerformsTheNextEvent : Prop :=
  (∀ (s : State) (e : HostEvent) (rest : List HostEvent), s.pending = e :: rest →
    step s = hostEvent e { s with pending := rest }) ∧
    (∀ s : State, s.pending = [] → step s = .next s)

/-- When the host's next event writes a legal word to CMD, the step is exec of the command the word
decodes to (`10_state.md` R26), in the state without that event; and so for a word placed by
`withFetchWord`. The list of coming events is the model's own (log entry 2). -/
def Obligations.StepRunsTheDecodedCommand : Prop :=
  (∀ (s : State) (w : Byte) (rest : List HostEvent) (i : Instr),
    s.pending = .writeCmd w :: rest → decodeWord w = .ok i →
    step s = exec i { s with pending := rest }) ∧
    (∀ (s : State) (w : Nat) (i : Instr), decodeTableWord 8 w = some i →
      step (s.withFetchWord 8 w) = exec i s)

/-- `10_state.md` R26: writing CMD stores the word and executes it, whichever word it is (a legal word
is exec of its command, an illegal one completes with code 6); writing ILEN stores any value; writing
STATUS or OLEN changes nothing. -/
def Obligations.HostRegisterWrites : Prop :=
  (∀ (w : Byte) (s t : State), hostEvent (.writeCmd w) s = .next t → t.cmd = w) ∧
    (∀ (w : Byte) (i : Instr) (s : State), decodeWord w = .ok i →
      hostEvent (.writeCmd w) s = exec i s) ∧
    (∀ (w : Byte) (s : State), Illegal w →
      ∃ t, hostEvent (.writeCmd w) s = .next t ∧ Ends s w 6 [] t) ∧
    (∀ (w : Byte) (s : State), hostEvent (.writeCmd w) s = hostWriteCmd w s) ∧
    (∀ (v : Half) (s : State), hostEvent (.writeIlen v) s = .next { s with ilen := v }) ∧
    (∀ (v : Byte) (s : State), hostEvent (.writeStatus v) s = .next s) ∧
    (∀ (v : Half) (s : State), hostEvent (.writeOlen v) s = .next s)

/-- Host reads of registers (`10_state.md` R22, R27, R30): the value by register number, nothing else
changed. That the host's reads are recorded, newest first and in 16 bits, is the model's own (log
entries 3 and 15). -/
def Obligations.HostRegisterReads : Prop :=
  ∀ (n : Nat) (s : State), ∃ v : Half,
    hostEvent (.readReg (Reg.ofNumber n)) s = .next { s with answers := v :: s.answers } ∧
    v.toNat = (if n = 0 then s.cmd.toNat else if n = 1 then s.err.toNat
      else if n = 2 then s.ilen.toNat else if n = 3 then s.olen.toNat else 0)

/-- `10_state.md` R28: a host write of an IBUF cell below MCAP stores the value there and changes
nothing else. -/
def Obligations.HostWritesInputCell : Prop :=
  ∀ (s : State) (i : Nat) (v : Byte), i < s.mcap →
    ∃ t, hostEvent (.writeIbuf i v) s = .next t ∧
      (∀ j, t.ibuf.read j = if j = i then some v else s.ibuf.read j) ∧
      t.cmd = s.cmd ∧ t.err = s.err ∧ t.ilen = s.ilen ∧ t.olen = s.olen ∧ t.obuf = s.obuf ∧
      t.cfg = s.cfg ∧ t.pending = s.pending ∧ t.answers = s.answers

/-- `10_state.md` R30: writes to what does not exist, and to OBUF, are ignored; a register of number 4
or above reads 0, and reading it leaves STATUS; a host read of a cell of index ≥ MCAP has no meaning:
no next state. -/
def Obligations.AccessesToWhatDoesNotExist : Prop :=
  (∀ (k : Nat) (v : Half) (s : State), hostEvent (.writeAbsent k v) s = .next s) ∧
    (∀ (i : Nat) (v : Byte) (s : State), hostEvent (.writeObuf i v) s = .next s) ∧
    (∀ (i : Nat) (v : Byte) (s : State), s.mcap ≤ i → hostEvent (.writeIbuf i v) s = .next s) ∧
    (∀ (n : Nat) (s : State), 4 ≤ n → s.readRegister (Reg.ofNumber n) = 0 ∧
      ∃ t, hostEvent (.readReg (Reg.ofNumber n)) s = .next t ∧ t.err = s.err) ∧
    (∀ (i : Nat) (s t : State), s.mcap ≤ i →
      hostEvent (.readIbuf i) s ≠ .next t ∧ hostEvent (.readObuf i) s ≠ .next t)

/-- A host read of a buffer cell (`10_state.md` R29): OUT[i] below OLEN, the last value stored in an
IBUF cell, nothing changed but the answers (log entry 3); a cell whose value is unspecified is refused
and a cell ≥ MCAP faults (the model's own stops, log entries 4, 6 and 10). -/
def Obligations.HostReadsCells : Prop :=
  (∀ (s : State) (i : Nat) (b : Byte), i < s.mcap → s.ibuf.read i = some b →
    hostEvent (.readIbuf i) s = .next { s with answers := b.setWidth 16 :: s.answers }) ∧
    (∀ (s : State) (i : Nat), i < s.mcap → s.ibuf.read i = none →
      hostEvent (.readIbuf i) s = .refused .unspecifiedCell) ∧
    (∀ (s : State) (i : Nat) (b : Byte), s.wf → i < s.olen.toNat → s.obuf.read i = some b →
      hostEvent (.readObuf i) s = .next { s with answers := b.setWidth 16 :: s.answers }) ∧
    (∀ (s : State) (i : Nat), i < s.mcap → s.olen.toNat ≤ i →
      hostEvent (.readObuf i) s = .refused .unspecifiedCell) ∧
    (∀ (s : State) (i : Nat), s.mcap ≤ i →
      hostEvent (.readIbuf i) s = .fault .noSuchCell ∧
      hostEvent (.readObuf i) s = .fault .noSuchCell)

/-- Two steps, a host write of an IBUF cell and then a host read of one, answer the value written if
the cells are the same and the earlier value otherwise (`20_memory.md` R58). The lists of events and
answers are the model's own (log entries 2 and 3). -/
def Obligations.ReadReturnsTheLastWrite : Prop :=
  ∀ (s : State) (i j : Nat) (v b : Byte) (rest : List HostEvent),
    s.pending = .writeIbuf i v :: .readIbuf j :: rest → i < s.mcap → j < s.mcap →
    (i ≠ j → s.ibuf.read j = some b) →
    ∃ r t : State, step s = .next r ∧ step r = .next t ∧ t.pending = rest ∧
      t.answers = (if i = j then v else b).setWidth 16 :: s.answers

/-- `10_state.md` R33: the registers after reset, and no cell of either buffer has a specified
value. -/
def Obligations.ResetLeavesEmptySequences : Prop :=
  State.reset.cmd = 0x00 ∧ State.reset.status = 0x00 ∧ State.reset.err = 0 ∧
    State.reset.ilen = 0 ∧ State.reset.olen = 0 ∧
    ∀ i, State.reset.ibuf.read i = none ∧ State.reset.obuf.read i = none

/-- `70_reset_and_hazards.md` R230: reset may happen in any state, sets the four registers and leaves
no cell specified, whatever it held. -/
def Obligations.ResetEventInAnyState : Prop :=
  ∀ s : State, ∃ t, hostEvent .reset s = .next t ∧ t.cmd = 0x00 ∧ t.status = 0x00 ∧ t.ilen = 0 ∧
    t.olen = 0 ∧ ∀ i, t.ibuf.read i = none ∧ t.obuf.read i = none

/-- `10_state.md` R23: STATUS bits [7:3] are zero in every state and bits [2:0] are ERR; ERR is 0 at
reset; every command writes it, whatever it held, and no command reads it (a command on a state with
another ERR answers the same); every command, the illegal words too, ends either as a failure with its
code, which is not 0, or as a success with ERR 0; no event but a command or reset changes it. -/
def Obligations.StatusHoldsTheLastCode : Prop :=
  (∀ s : State, s.status.toNat = s.err.toNat ∧ s.status.toNat < 8) ∧ State.reset.err = 0 ∧
    (∀ (w : Byte) (s : State) (c : BitVec 3),
      hostWriteCmd w { s with err := c } = hostWriteCmd w s) ∧
    (∀ (w : Byte) (s t : State), hostWriteCmd w s = .next t →
      (∃ k, t = fail k (s.storeCmd w) ∧ t.err = k.code) ∨ ∃ r, t = succeed r ∧ t.err = 0) ∧
    (∀ (k : ErrorKind) (s : State), (fail k s).err = k.code ∧ k.code ≠ 0) ∧
    (∀ s : State, (succeed s).err = 0) ∧
    (∀ (e : HostEvent) (s t : State), (∀ w, e ≠ .writeCmd w) → e ≠ .reset →
      hostEvent e s = .next t → t.err = s.err)

/-! ## Invariants -/

/-- Every step keeps a good state good: both buffers stay canonical and inside MCAP, OBUF stays exactly
the sequence OUT, and OLEN stays at most MCAP (`10_state.md` R25, `60_exceptions.md` R205). -/
def Obligations.EveryStepKeepsTheStateGood : Prop :=
  ∀ s t : State, s.wf → step s = .next t → t.wf

/-- The reset state is good. -/
def Obligations.ResetStateIsGood : Prop := State.reset.wf

/-- No step changes MCAP, and a step takes exactly the events it performs: none or the first
(`00_scope.md` R10 (a); log entries 1 and 2). -/
def Obligations.ConfigurationNeverChanges : Prop :=
  ∀ s t : State, step s = .next t → t.cfg = s.cfg ∧ t.pending = s.pending.tail

/-- When the host keeps its duties for its next event (`70_reset_and_hazards.md` R234, R240), a step
from a good state goes on. -/
def Obligations.DutyMeansTheStepGoesOn : Prop :=
  ∀ (s : State) (e : HostEvent) (rest : List HostEvent), s.wf → s.pending = e :: rest →
    dutyMet e s = true → s.goesOn

/-! ## Commands -/

/-- `46_system.md` R190: NOP. The word 0x00 is NOP and 0x01 to 0x0F are illegal; NOP stores its word
and clears ERR in every state and changes nothing else; no event but a command or reset changes
ERR. -/
def Obligations.NopOnlyClearsTheCode : Prop :=
  (∀ s : State, exec .nop s = .next { s with cmd := 0x00, err := 0 }) ∧
    decodeWord 0x00 = .ok .nop ∧
    (∀ w : Byte, 1 ≤ w.toNat → w.toNat ≤ 15 → Illegal w) ∧
    (∀ (e : HostEvent) (s t : State), (∀ w, e ≠ .writeCmd w) → e ≠ .reset →
      hostEvent e s = .next t → t.err = s.err)

/-- `46_system.md` R191: XFER. In a good state it copies OBUF[0..OLEN) to IBUF, sets ILEN to OLEN and
ERR to 0, and leaves OBUF, OLEN, every other IBUF cell and everything else as they were; ILEN is not
checked. The word 0xA0 is XFER and 0xA1 to 0xAF are illegal. -/
def Obligations.XferCopiesTheResult : Prop :=
  (∀ s : State, s.wf → ∃ t, exec .xfer s = .next t ∧ t.cmd = 0xA0 ∧ t.err = 0 ∧ t.ilen = s.olen ∧
    (∀ i, i < s.olen.toNat → t.ibuf.read i = s.obuf.read i ∧ (s.obuf.read i).isSome = true) ∧
    (∀ i, s.olen.toNat ≤ i → t.ibuf.read i = s.ibuf.read i) ∧
    t.olen = s.olen ∧ t.obuf = s.obuf ∧ t.cfg = s.cfg ∧ t.pending = s.pending ∧
    t.answers = s.answers) ∧
    decodeWord 0xA0 = .ok .xfer ∧
    (∀ w : Byte, 0xA1 ≤ w.toNat → w.toNat ≤ 0xAF → Illegal w)

/-- `41_bitwidth.md` R116: GEOM, in every state (ILEN is not checked, no cell is read): the four
numbers of each alphabet, its words, and the illegal words of its OP. -/
def Obligations.GeomReportsTheGeometry : Prop :=
  (∀ (a : Alphabet) (s : State),
    Completes (.geom a) s (BitVec.ofNat 8 (0x90 + a.id.toNat)) 0
      (match a with
        | .base16 => [4, 1, 2, 0]
        | .base16upper => [4, 1, 2, 0]
        | .base32 => [5, 5, 8, 8]
        | .base32hex => [5, 5, 8, 8]
        | .base64 => [6, 3, 4, 4]
        | .base64url => [6, 3, 4, 4]
        | .octal => [3, 3, 8, 0])) ∧
    (∀ a : Alphabet, decodeWord (BitVec.ofNat 8 (0x90 + a.id.toNat)) = .ok (.geom a)) ∧
    (∀ w : Byte, 0x97 ≤ w.toNat → w.toNat ≤ 0x9F → Illegal w)

/-- `42_packer.md` R130, with R128 and the words of R127: PACK. ILEN above MCAP is error 7 and a group
above l/8 bytes (3, 1, 5, 3 for n = 3 to 6) error 2, both whatever the cells hold; a shorter group of
k bytes gives ceil(8k/n) symbols below 2^n that spell its bits followed by zero bits. -/
def Obligations.PackRegroupsOneByteGroup : Prop :=
  (∀ a : Alphabet, decodeWord (BitVec.ofNat 8 (0x10 + a.id.toNat)) = .ok (.pack a)) ∧
    (∀ w : Byte, 0x17 ≤ w.toNat → w.toNat ≤ 0x1F → Illegal w) ∧
    (groupBytes 3 = 3 ∧ groupBytes 4 = 1 ∧ groupBytes 5 = 5 ∧ groupBytes 6 = 3) ∧
    ∀ (a : Alphabet) (s : State),
      (s.mcap < s.ilen.toNat →
        Completes (.pack a) s (BitVec.ofNat 8 (0x10 + a.id.toNat)) 7 []) ∧
      (s.ilen.toNat ≤ s.mcap → groupBytes (symbolBits a) < s.ilen.toNat →
        Completes (.pack a) s (BitVec.ofNat 8 (0x10 + a.id.toNat)) 2 []) ∧
      (∀ xs, InputIs s xs → xs.length ≤ groupBytes (symbolBits a) →
        ∃ ys : List Byte, Completes (.pack a) s (BitVec.ofNat 8 (0x10 + a.id.toNat)) 0 ys ∧
          ys.length = (8 * xs.length + symbolBits a - 1) / symbolBits a ∧
          (∀ y ∈ ys, y.toNat < 2 ^ symbolBits a) ∧
          bitString (symbolBits a) ys = bitString 8 xs ++
            List.replicate (symbolBits a * ys.length - 8 * xs.length) false)

/-- From the spec's R145, R140, R141 and R146: UNPACK and the order of its errors. ILEN above
MCAP is error 7 and a group above l/n symbols (8, 2, 8, 4 for n = 3 to 6) error 2, both whatever the cells hold; then a symbol of
2^n or more is error 3; then, of the m n bits the symbols spell, a one bit after the last whole byte
is error 4; else the whole bytes are the result. That error 2 is reported also when a cell of the group
was never written is the model's own reading (log entry 5), where the spec's R235 has a model refuse. -/
def Obligations.UnpackChecksAndRegroups : Prop :=
  (∀ a : Alphabet, decodeWord (BitVec.ofNat 8 (0x20 + a.id.toNat)) = .ok (.unpack a)) ∧
    (∀ w : Byte, 0x27 ≤ w.toNat → w.toNat ≤ 0x2F → Illegal w) ∧
    (groupSyms 3 = 8 ∧ groupSyms 4 = 2 ∧ groupSyms 5 = 8 ∧ groupSyms 6 = 4) ∧
    ∀ (a : Alphabet) (s : State),
      (s.mcap < s.ilen.toNat →
        Completes (.unpack a) s (BitVec.ofNat 8 (0x20 + a.id.toNat)) 7 []) ∧
      (s.ilen.toNat ≤ s.mcap → groupSyms (symbolBits a) < s.ilen.toNat →
        Completes (.unpack a) s (BitVec.ofNat 8 (0x20 + a.id.toNat)) 2 []) ∧
      (∀ xs, InputIs s xs → xs.length ≤ groupSyms (symbolBits a) →
        ((∃ x ∈ xs, 2 ^ symbolBits a ≤ x.toNat) →
          Completes (.unpack a) s (BitVec.ofNat 8 (0x20 + a.id.toNat)) 3 []) ∧
        ((∀ x ∈ xs, x.toNat < 2 ^ symbolBits a) →
          true ∈ (bitString (symbolBits a) xs).drop (8 * (xs.length * symbolBits a / 8)) →
          Completes (.unpack a) s (BitVec.ofNat 8 (0x20 + a.id.toNat)) 4 []) ∧
        ((∀ x ∈ xs, x.toNat < 2 ^ symbolBits a) →
          true ∉ (bitString (symbolBits a) xs).drop (8 * (xs.length * symbolBits a / 8)) →
          ∃ ys : List Byte, Completes (.unpack a) s (BitVec.ofNat 8 (0x20 + a.id.toNat)) 0 ys ∧
            ys.length = xs.length * symbolBits a / 8 ∧
            bitString 8 ys =
              (bitString (symbolBits a) xs).take (8 * (xs.length * symbolBits a / 8))))

/-- `40_alphabet.md` R95, with R94: V2C. Error 7 for ILEN above MCAP; error 5 exactly when some value
is 2^n or more; else each value's character, in place. -/
def Obligations.V2cLooksUpEveryValue : Prop :=
  (∀ a : Alphabet, decodeWord (BitVec.ofNat 8 (0x30 + a.id.toNat)) = .ok (.v2c a)) ∧
    (∀ w : Byte, 0x37 ≤ w.toNat → w.toNat ≤ 0x3F → Illegal w) ∧
    ∀ (a : Alphabet) (s : State),
      (s.mcap < s.ilen.toNat →
        Completes (.v2c a) s (BitVec.ofNat 8 (0x30 + a.id.toNat)) 7 []) ∧
      (∀ xs, InputIs s xs →
        ((∃ x ∈ xs, 2 ^ symbolBits a ≤ x.toNat) →
          Completes (.v2c a) s (BitVec.ofNat 8 (0x30 + a.id.toNat)) 5 []) ∧
        ((∀ x ∈ xs, x.toNat < 2 ^ symbolBits a) →
          ∃ ys : List Byte, Completes (.v2c a) s (BitVec.ofNat 8 (0x30 + a.id.toNat)) 0 ys ∧
            ys.length = xs.length ∧
            ∀ j : Nat, ys[j]? = xs[j]?.bind fun x => (table a)[x.toNat]?))

/-- `40_alphabet.md` R96, with R94 and R97: C2V. Error 7 for ILEN above MCAP; error 1 exactly when some
character is neither in the alphabet nor an allowed pad character; else each character's value, or 0xFF
for an allowed pad character anywhere. -/
def Obligations.C2vLooksUpEveryCharacter : Prop :=
  (∀ (f : Bool) (a : Alphabet),
    decodeWord (BitVec.ofNat 8 (0x40 + 8 * f.toNat + a.id.toNat)) = .ok (.c2v f a)) ∧
    Illegal 0x47 ∧ Illegal 0x4F ∧
    ∀ (f : Bool) (a : Alphabet) (s : State),
      (s.mcap < s.ilen.toNat →
        Completes (.c2v f a) s (BitVec.ofNat 8 (0x40 + 8 * f.toNat + a.id.toNat)) 7 []) ∧
      (∀ xs, InputIs s xs →
        ((∃ x ∈ xs, x ∉ table a ∧ ¬(f = true ∧ x = 0x3D)) →
          Completes (.c2v f a) s (BitVec.ofNat 8 (0x40 + 8 * f.toNat + a.id.toNat)) 1 []) ∧
        ((∀ x ∈ xs, x ∈ table a ∨ (f = true ∧ x = 0x3D)) →
          ∃ ys : List Byte,
            Completes (.c2v f a) s (BitVec.ofNat 8 (0x40 + 8 * f.toNat + a.id.toNat)) 0 ys ∧
            ys.length = xs.length ∧
            ∀ (j : Nat) (x y : Byte), xs[j]? = some x → ys[j]? = some y →
              (x ∈ table a → (table a)[y.toNat]? = some x) ∧ (x ∉ table a → y = 0xFF)))

/-- From the spec's R158: PADA. With r the number of pad characters that brings ILEN to a multiple of PG
(0 where F = 0 or PG = 0): error 7 when ILEN or ILEN + r exceeds MCAP, whatever the cells hold, else
IN followed by r pad characters. That error 7 for ILEN + r is reported also when a cell of IN was never
written is the model's own reading (log entry 5), where the spec's R235 has a model refuse. -/
def Obligations.PadaAppendsPadCharacters : Prop :=
  (∀ (f : Bool) (a : Alphabet),
    decodeWord (BitVec.ofNat 8 (0x50 + 8 * f.toNat + a.id.toNat)) = .ok (.pada f a)) ∧
    Illegal 0x57 ∧ Illegal 0x5F ∧
    ∀ (f : Bool) (a : Alphabet) (s : State),
      (s.mcap < s.ilen.toNat →
        Completes (.pada f a) s (BitVec.ofNat 8 (0x50 + 8 * f.toNat + a.id.toNat)) 7 []) ∧
      (∀ r, PadRun a f s.ilen.toNat r →
        (s.ilen.toNat ≤ s.mcap → s.mcap < s.ilen.toNat + r →
          Completes (.pada f a) s (BitVec.ofNat 8 (0x50 + 8 * f.toNat + a.id.toNat)) 7 []) ∧
        (∀ xs, InputIs s xs → s.ilen.toNat + r ≤ s.mcap →
          Completes (.pada f a) s (BitVec.ofNat 8 (0x50 + 8 * f.toNat + a.id.toNat)) 0
            (xs ++ List.replicate r 0x3D)))

/-- `44_padder.md` R159, with R157: PADS, the same for every alphabet. Error 7 for ILEN above MCAP;
error 4 when a character that is no pad character follows a pad character; else the characters before
the first pad character. -/
def Obligations.PadsStripsPadCharacters : Prop :=
  (∀ a : Alphabet, decodeWord (BitVec.ofNat 8 (0x60 + a.id.toNat)) = .ok (.pads a)) ∧
    (∀ w : Byte, 0x67 ≤ w.toNat → w.toNat ≤ 0x6F → Illegal w) ∧
    ∀ (a : Alphabet) (s : State),
      (s.mcap < s.ilen.toNat →
        Completes (.pads a) s (BitVec.ofNat 8 (0x60 + a.id.toNat)) 7 []) ∧
      (∀ xs, InputIs s xs → Interrupted xs →
        Completes (.pads a) s (BitVec.ofNat 8 (0x60 + a.id.toNat)) 4 []) ∧
      (∀ (u : List Byte) (r : Nat), InputIs s (u ++ List.replicate r 0x3D) → 0x3D ∉ u →
        Completes (.pads a) s (BitVec.ofNat 8 (0x60 + a.id.toNat)) 0 u)

/-- ENCODE on a whole message, as the spec's R172, R173 and R178 give it together: with
m = ceil(8k/n) symbols and r pad characters (`PadRun`), error 7 when ILEN or m + r exceeds MCAP,
whatever the cells hold; else the text is the characters of m symbols that spell the bits of the
message followed by zero bits, and r pad characters. That error 7 for m + r is reported also when a cell
of IN was never written is the model's own reading (log entry 5), where the spec's R235 has a model
refuse. -/
def Obligations.EncodeSpellsTheWholeMessage : Prop :=
  (∀ (f : Bool) (a : Alphabet),
    decodeWord (BitVec.ofNat 8 (0x70 + 8 * f.toNat + a.id.toNat)) = .ok (.encode f a)) ∧
    Illegal 0x77 ∧ Illegal 0x7F ∧
    ∀ (f : Bool) (a : Alphabet) (s : State),
      (s.mcap < s.ilen.toNat →
        Completes (.encode f a) s (BitVec.ofNat 8 (0x70 + 8 * f.toNat + a.id.toNat)) 7 []) ∧
      (∀ m r, m = (8 * s.ilen.toNat + symbolBits a - 1) / symbolBits a → PadRun a f m r →
        (s.ilen.toNat ≤ s.mcap → s.mcap < m + r →
          Completes (.encode f a) s (BitVec.ofNat 8 (0x70 + 8 * f.toNat + a.id.toNat)) 7 []) ∧
        (∀ xs, InputIs s xs → m + r ≤ s.mcap →
          ∃ syms chars : List Byte,
            Completes (.encode f a) s (BitVec.ofNat 8 (0x70 + 8 * f.toNat + a.id.toNat)) 0
              (chars ++ List.replicate r 0x3D) ∧
            syms.length = m ∧ (∀ v ∈ syms, v.toNat < 2 ^ symbolBits a) ∧
            bitString (symbolBits a) syms = bitString 8 xs ++
              List.replicate (symbolBits a * m - 8 * xs.length) false ∧
            chars.length = m ∧
            ∀ j : Nat, chars[j]? = syms[j]?.bind fun v => (table a)[v.toNat]?))

/-- DECODE on a whole text: what it accepts (the spec's R180) and which error it reports (R176), from
the function of R174. Error 7 for ILEN above MCAP; interrupted padding is error 4; then a character
before the padding outside the alphabet is error 1; then, of the bits the values spell, a one bit after
the last whole byte is error 4; else the whole bytes are the result. -/
def Obligations.DecodeAcceptsExactlyTheCanonicalBits : Prop :=
  (∀ a : Alphabet, decodeWord (BitVec.ofNat 8 (0x80 + a.id.toNat)) = .ok (.decode a)) ∧
    (∀ w : Byte, 0x87 ≤ w.toNat → w.toNat ≤ 0x8F → Illegal w) ∧
    ∀ (a : Alphabet) (s : State),
      (s.mcap < s.ilen.toNat →
        Completes (.decode a) s (BitVec.ofNat 8 (0x80 + a.id.toNat)) 7 []) ∧
      (∀ xs, InputIs s xs → Interrupted xs →
        Completes (.decode a) s (BitVec.ofNat 8 (0x80 + a.id.toNat)) 4 []) ∧
      (∀ (u : List Byte) (r : Nat), InputIs s (u ++ List.replicate r 0x3D) → 0x3D ∉ u →
        ((∃ c ∈ u, c ∉ table a) →
          Completes (.decode a) s (BitVec.ofNat 8 (0x80 + a.id.toNat)) 1 []) ∧
        (∀ syms : List Byte, syms.length = u.length →
          (∀ (j : Nat) (v c : Byte), syms[j]? = some v → u[j]? = some c →
            (table a)[v.toNat]? = some c) →
          (true ∈ (bitString (symbolBits a) syms).drop (8 * (u.length * symbolBits a / 8)) →
            Completes (.decode a) s (BitVec.ofNat 8 (0x80 + a.id.toNat)) 4 []) ∧
          (true ∉ (bitString (symbolBits a) syms).drop (8 * (u.length * symbolBits a / 8)) →
            ∃ ys : List Byte, Completes (.decode a) s (BitVec.ofNat 8 (0x80 + a.id.toNat)) 0 ys ∧
              ys.length = u.length * symbolBits a / 8 ∧
              bitString 8 ys =
                (bitString (symbolBits a) syms).take (8 * (u.length * symbolBits a / 8)))))

/-! ## Errors, frames and determinism over all commands -/

/-- `60_exceptions.md` R206: a command that fails with code c sets STATUS to c and OLEN to 0, makes
every OBUF cell unspecified and changes nothing else; CMD holds the word. For every word, the illegal
ones too. -/
def Obligations.FailingCommandLeavesNoResult : Prop :=
  ∀ (w : Byte) (s t : State), hostWriteCmd w s = .next t → t.err ≠ 0 → Ends s w t.err [] t

/-- `60_exceptions.md` R204: every command that takes IN fails with code 7 when ILEN exceeds MCAP,
whatever the buffers hold; NOP, GEOM and XFER never end with code 7; and it cannot occur when MCAP is
65535. -/
def Obligations.InputBeyondCapacityIsCode7 : Prop :=
  (∀ (i : Instr) (s : State), takesInput i = true → s.mcap < s.ilen.toNat →
    Completes i s (encodeWord i) 7 []) ∧
    (∀ (i : Instr) (s t : State), takesInput i = false → exec i s = .next t → t.err = 0) ∧
    (∀ s : State, s.mcap = 65535 → ¬ s.mcap < s.ilen.toNat)

/-- From the spec's R205: with ILEN within MCAP only PADA with F = 1 and ENCODE can end with code 7;
OLEN never exceeds MCAP after a command from a good state; and ENCODE does not end with code 7 while
ILEN is within the bound the spec gives for the alphabet. -/
def Obligations.OnlyPadaAndEncodeOverflowTheResult : Prop :=
  (∀ (i : Instr) (s t : State), s.ilen.toNat ≤ s.mcap → exec i s = .next t → t.err = 7 →
    (∃ a, i = .pada true a) ∨ ∃ f a, i = .encode f a) ∧
    (∀ (i : Instr) (s t : State), s.wf → exec i s = .next t → t.olen.toNat ≤ t.mcap) ∧
    (∀ (f : Bool) (a : Alphabet) (s : State) (xs : List Byte), InputIs s xs →
      xs.length ≤ (match a with
        | .octal => 3 * s.mcap / 8
        | .base16 => s.mcap / 2
        | .base16upper => s.mcap / 2
        | .base32 => 5 * (s.mcap / 8)
        | .base32hex => 5 * (s.mcap / 8)
        | .base64 => 3 * (s.mcap / 4)
        | .base64url => 3 * (s.mcap / 4)) →
      ∃ t, exec (.encode f a) s = .next t ∧ t.err = 0)

/-- The table of the spec's R202: no command ends with a code outside its row. -/
def Obligations.EachCommandKeepsToItsCodes : Prop :=
  ∀ (i : Instr) (s t : State), exec i s = .next t →
    t.err ∈ (match i with
      | .nop => [0]
      | .pack _ => [0, 2, 7]
      | .unpack _ => [0, 2, 3, 4, 7]
      | .v2c _ => [0, 5, 7]
      | .c2v _ _ => [0, 1, 7]
      | .pada _ _ => [0, 7]
      | .pads _ => [0, 4, 7]
      | .encode _ _ => [0, 7]
      | .decode _ => [0, 1, 4, 7]
      | .geom _ => [0]
      | .xfer => ([0] : List (BitVec 3)))

/-- The touch sets of the spec's R56: whatever they answer, the eight commands that take IN and GEOM
leave ILEN, every IBUF cell, the configuration and the host's lists as they were, and CMD holds their
word; NOP leaves OLEN and every OBUF cell too; XFER leaves OLEN and every OBUF cell and every IBUF cell
of index OLEN and above. -/
def Obligations.CommandsTouchOnlyTheirOwnState : Prop :=
  (∀ (i : Instr) (s t : State), exec i s = .next t → i ≠ .xfer →
    t.cmd = encodeWord i ∧ t.ilen = s.ilen ∧ (∀ j, t.ibuf.read j = s.ibuf.read j) ∧
    t.cfg = s.cfg ∧ t.pending = s.pending ∧ t.answers = s.answers) ∧
    (∀ s t : State, exec .nop s = .next t →
      t.olen = s.olen ∧ ∀ j, t.obuf.read j = s.obuf.read j) ∧
    (∀ s t : State, exec .xfer s = .next t →
      t.cmd = encodeWord .xfer ∧ t.olen = s.olen ∧ (∀ j, t.obuf.read j = s.obuf.read j) ∧
      (∀ j, s.olen.toNat ≤ j → t.ibuf.read j = s.ibuf.read j) ∧
      t.cfg = s.cfg ∧ t.pending = s.pending ∧ t.answers = s.answers)

/-- `10_state.md` R31: the result of a command that takes IN, and of GEOM, is the same in two states of
the same capacity with the same ILEN and the same IN cells; NOP's code is the same in any two states;
XFER's result is the same in two states with the same OLEN and OUT cells; an illegal word's is the same
in any two states; and the same command issued again gives the same STATUS and the same OUT. -/
def Obligations.ResultDependsOnTheInputAlone : Prop :=
  (∀ (i : Instr) (s s' t : State), i ≠ .xfer → i ≠ .nop → s.cfg = s'.cfg → s.ilen = s'.ilen →
    (∀ j < s.ilen.toNat, s.ibuf.read j = s'.ibuf.read j) → exec i s = .next t →
    ∃ t', exec i s' = .next t' ∧ t'.err = t.err ∧ t'.olen = t.olen ∧
      ∀ j, t'.obuf.read j = t.obuf.read j) ∧
    (∀ s s' : State, ∃ t t', exec .nop s = .next t ∧ exec .nop s' = .next t' ∧ t'.err = t.err) ∧
    (∀ s s' t : State, s.cfg = s'.cfg → s.olen = s'.olen →
      (∀ j < s.olen.toNat, s.obuf.read j = s'.obuf.read j) → exec .xfer s = .next t →
      s.olen.toNat ≤ s.mcap →
      ∃ t', exec .xfer s' = .next t' ∧ t'.err = t.err ∧ t'.ilen = t.ilen ∧
        ∀ j < s.olen.toNat, t'.ibuf.read j = t.ibuf.read j) ∧
    (∀ (w : Byte) (s s' : State), Illegal w →
      ∃ t t', hostWriteCmd w s = .next t ∧ hostWriteCmd w s' = .next t' ∧ t'.err = t.err ∧
        t'.olen = t.olen ∧ ∀ j, t'.obuf.read j = t.obuf.read j) ∧
    (∀ (i : Instr) (s t : State), exec i s = .next t →
      ∃ t', exec i t = .next t' ∧ t'.err = t.err ∧ t'.olen = t.olen ∧
        ∀ j, t'.obuf.read j = t.obuf.read j)

/-- A command whose IN holds a cell never written is refused (the spec's R235), unless its length alone
decides an error (the model's reading, log entry 5). -/
def Obligations.UnwrittenInputIsRefused : Prop :=
  ∀ (i : Instr) (s : State) (j : Nat), takesInput i = true → s.ilen.toNat ≤ s.mcap →
    j < s.ilen.toNat → s.ibuf.read j = none →
    (match i with
      | .pack a => s.ilen.toNat ≤ groupBytes (symbolBits a)
      | .unpack a => s.ilen.toNat ≤ groupSyms (symbolBits a)
      | .pada f a => ∀ r, PadRun a f s.ilen.toNat r → s.ilen.toNat + r ≤ s.mcap
      | .encode f a => ∀ r,
          PadRun a f ((8 * s.ilen.toNat + symbolBits a - 1) / symbolBits a) r →
          (8 * s.ilen.toNat + symbolBits a - 1) / symbolBits a + r ≤ s.mcap
      | .nop => True
      | .v2c _ => True
      | .c2v _ _ => True
      | .pads _ => True
      | .decode _ => True
      | .geom _ => True
      | .xfer => True) →
    exec i s = .refused .unwrittenInputCell

/-- The chain hazard of the spec's R238: after a failed command XFER succeeds with ILEN = 0, and then
every command that takes IN succeeds with the empty result. -/
def Obligations.XferHidesAFailure : Prop :=
  ∀ (w : Byte) (s t : State), hostWriteCmd w s = .next t → t.err ≠ 0 →
    ∃ t', exec .xfer t = .next t' ∧ t'.err = 0 ∧ t'.ilen = 0 ∧
      ∀ j : Instr, takesInput j = true →
        ∃ t'', exec j t' = .next t'' ∧ t''.err = 0 ∧ t''.olen = 0 ∧ ∀ i, t''.obuf.read i = none

/-! ## Component functions -/

/-- `41_bitwidth.md` R111: Euclid's recurrence and lcm, for all natural numbers. -/
def Obligations.GcdFollowsEuclid : Prop :=
  (∀ a : Nat, 1 ≤ a → euclidGcd a 0 = a) ∧
    (∀ a b : Nat, 1 ≤ a → 0 < b → euclidGcd a b = euclidGcd b (a % b)) ∧
    (∀ a b : Nat, euclidLcm a b = a * b / euclidGcd a b)

/-- The group geometry of `41_bitwidth.md` R114 and the length laws of R115: l is the smallest bit
count divisible by 8 and n; k bytes carry ceil(8k/n) symbols, which determine k bytes again; the
trailing bits are fewer than 8. -/
def Obligations.GroupGeometryAndLengthLaws : Prop :=
  ∀ n, Width n →
    (8 ∣ groupBits n ∧ n ∣ groupBits n ∧
      ∀ l, 0 < l → 8 ∣ l → n ∣ l → groupBits n ≤ l) ∧
    groupBytes n * 8 = groupBits n ∧ groupSyms n * n = groupBits n ∧
    symCount n (groupBytes n) = groupSyms n ∧
    ∀ k, byteCount n (symCount n k) = k ∧ 8 * k ≤ n * symCount n k ∧ n * symCount n k < 8 * k + n ∧
      trail n k < 8

/-- `40_alphabet.md` R90: each table has 2^n distinct characters. -/
def Obligations.TablesAreDistinctCharacters : Prop :=
  ∀ a : Alphabet, (table a).length = 2 ^ symbolBits a ∧ (table a).Nodup

/-- The inverse laws of the spec's R98. -/
def Obligations.LookupsAreInverse : Prop :=
  (∀ (a : Alphabet) (f : Bool) (v : Byte), v.toNat < 2 ^ symbolBits a →
    ∃ c, valueToChar1 a v = .ok c ∧ c ∈ table a ∧ charToValue1 a f c = .ok v) ∧
    (∀ (a : Alphabet) (f : Bool) (c : Byte), c ∈ table a →
      ∃ v, charToValue1 a f c = .ok v ∧ v.toNat < 2 ^ symbolBits a ∧ valueToChar1 a v = .ok c)

/-- `40_alphabet.md` R99: a character valid in one alphabet but absent from the one decoded against,
with the padding uninterrupted, makes DECODE fail with OutOfAlphabetCharacter; and the rule's
examples. -/
def Obligations.AlphabetIsolation : Prop :=
  (∀ (a b : Alphabet) (s : State) (u : List Byte) (r : Nat) (c : Byte),
    InputIs s (u ++ List.replicate r 0x3D) → 0x3D ∉ u → c ∈ u → c ∈ table b → c ∉ table a →
    Completes (.decode a) s (BitVec.ofNat 8 (0x80 + a.id.toNat)) 1 []) ∧
    (∀ s : State, InputIs s [0x46, 0x46] →
      Completes (.decode .base16) s 0x80 1 [] ∧ Completes (.decode .base16upper) s 0x81 0 [0xFF])

/-- Pack and Unpack (the spec's R147 and R148): Unpack undoes Pack on every group; Pack undoes Unpack
on every accepted group of a length Pack produces. -/
def Obligations.UnpackUndoesPack : Prop :=
  (∀ (n : Nat) (g : List Byte), Width n → g.length ≤ groupBytes n →
    ∃ ys, pack n g = .ok ys ∧ unpack n ys = .ok g) ∧
    (∀ (n k : Nat) (ys g : List Byte), Width n → k ≤ groupBytes n → ys.length = symCount n k →
      unpack n ys = .ok g → pack n g = .ok ys)

/-- `42_packer.md` R129: the sliding-cursor algorithm draws exactly the symbols of the definition, from
every zero-padded group of bytes. -/
def Obligations.PackCursorEqualsPack : Prop :=
  ∀ (n : Nat) (p : List Nat), Width n → p.length = groupBytes n → (∀ b ∈ p, b < 256) →
    packCursor n p = packFull n p

/-- `43_unpacker.md` R144: the sliding-cursor algorithm in reverse yields exactly the bytes of the
definition, from every zero-padded group of symbols. -/
def Obligations.UnpackCursorEqualsUnpack : Prop :=
  ∀ (n : Nat) (q : List Nat), Width n → q.length = groupSyms n → (∀ v ∈ q, v < 2 ^ n) →
    unpackCursor n q = unpackFull n q

/-- Padding (the spec's R161 and R160): PadStrip undoes PadAppend on every text without a pad
character, for every alphabet and F, and the pad character is in no alphabet (R93); and DECODE's
function does not depend on the number of pad characters. -/
def Obligations.StripUndoesAppend : Prop :=
  (∀ (a : Alphabet) (f : Bool) (t : List Byte), 0x3D ∉ t →
    ∃ u, padAppend a f t = .ok u ∧ padStrip u = .ok t) ∧
    (∀ a : Alphabet, (0x3D : Byte) ∉ table a) ∧
    (∀ (a : Alphabet) (t : List Byte) (j k : Nat), 0x3D ∉ t →
      decodeText a (t ++ List.replicate j 0x3D) = decodeText a (t ++ List.replicate k 0x3D))

/-- `45_codec.md` R171: chunking. The chunks concatenate to the sequence; there are ceil(len/g); every
one but the last has exactly g elements and the last between 1 and g; the empty sequence has none. -/
def Obligations.ChunksCutTheSequence : Prop :=
  ∀ (g : Nat) (xs : List Byte), 1 ≤ g →
    (chunks g xs).flatten = xs ∧ (chunks g xs).length = (xs.length + g - 1) / g ∧
    (∀ c ∈ (chunks g xs).dropLast, c.length = g) ∧
    (∀ c, (chunks g xs).getLast? = some c → 1 ≤ c.length ∧ c.length ≤ g) ∧ chunks g [] = []

/-- ENCODE cannot fail with a source error, and the length of its text depends on k, A and F alone
(the spec's R173 and R178). -/
def Obligations.EncodedLengthLaw : Prop :=
  ∀ (a : Alphabet) (f : Bool) (b : List Byte), ∃ t m,
    encodeText a f b = .ok t ∧ m = (8 * b.length + symbolBits a - 1) / symbolBits a ∧
    t.length = (if f = true ∧ padGroup a ≠ 0 then
      padGroup a * ((m + padGroup a - 1) / padGroup a) else m)

/-! ## Round trips over commands -/

/-- The round trip of the spec's R177, for every alphabet, with and without padding: ENCODE, XFER,
DECODE ends with ERR = 0 and OUT equal to the original IN, whenever the text fits in MCAP. -/
def Obligations.DecodeUndoesEncode : Prop :=
  ∀ (a : Alphabet) (f : Bool) (s : State) (xs : List Byte), InputIs s xs →
    (if f = true ∧ padGroup a ≠ 0 then
      padGroup a * (((8 * xs.length + symbolBits a - 1) / symbolBits a + padGroup a - 1) /
        padGroup a)
      else (8 * xs.length + symbolBits a - 1) / symbolBits a) ≤ s.mcap →
    ∃ t, runStopping [.encode f a, .xfer, .decode a] s = some t ∧ t.err = 0 ∧
      t.cmd = BitVec.ofNat 8 (0x80 + a.id.toNat) ∧ t.olen.toNat = xs.length ∧
      ∀ i, t.obuf.read i = xs[i]?

/-- The facade equals the chain of components on one group (the spec's R181, encode side): ENCODE gives
the same OUT as PACK, XFER, V2C, XFER, PADA. -/
def Obligations.EncodeEqualsTheChain : Prop :=
  ∀ (a : Alphabet) (f : Bool) (s : State) (xs : List Byte), InputIs s xs →
    xs.length ≤ groupBytes (symbolBits a) →
    ∃ t u, exec (.encode f a) s = .next t ∧
      runAll [.pack a, .xfer, .v2c a, .xfer, .pada f a] s = some u ∧
      t.err = 0 ∧ u.err = 0 ∧ u.olen = t.olen ∧ ∀ i, u.obuf.read i = t.obuf.read i

/-- The facade equals the chain of components on one group (the spec's R181, decode side): DECODE gives
the same ERR and the same OUT as PADS, XFER, C2V, XFER, UNPACK, stopping at the first that fails. -/
def Obligations.DecodeEqualsTheChain : Prop :=
  ∀ (a : Alphabet) (s : State) (xs : List Byte), InputIs s xs →
    (xs.takeWhile (· != 0x3D)).length ≤ groupSyms (symbolBits a) →
    ∃ t u, exec (.decode a) s = .next t ∧
      runStopping [.pads a, .xfer, .c2v false a, .xfer, .unpack a] s = some u ∧
      u.err = t.err ∧ u.olen = t.olen ∧ ∀ i, u.obuf.read i = t.obuf.read i
end

