-- ==== Sys2Proof/Laws/Memory.lean ====
section
/-! SUPPORT. The laws of a message buffer: what a read gives after a write, that a write keeps the
canonical form, and what the buffer of a sequence holds. -/

namespace Sys2Proof.Machine

@[simp] theorem Memory.read_nil (i : Nat) : Memory.read [] i = none := rfl

theorem Memory.read_cons (c : Host.Cell) (m : Memory) (i : Nat) :
    Memory.read (c :: m) i = if c.1 = i then some c.2 else Memory.read m i := rfl

theorem Memory.read_write_same (m : Memory) (i : Nat) (v : Byte) :
    (m.write i v).read i = some v := by
  induction m with
  | nil => simp [Memory.write, Memory.read]
  | cons c rest ih =>
    unfold Memory.write
    split
    · simp [Memory.read]
    · split
      · simp [Memory.read]
      · rename_i h; simp [Memory.read, h, ih]

theorem Memory.read_write_other (m : Memory) {i j : Nat} (v : Byte) (h : j ≠ i) :
    (m.write i v).read j = m.read j := by
  induction m with
  | nil => simp [Memory.write, Memory.read, Ne.symm h]
  | cons c rest ih =>
    unfold Memory.write
    split
    · simp [Memory.read, Ne.symm h]
    · split
      · rename_i hc; subst hc; simp [Memory.read, Ne.symm h]
      · simp only [Memory.read_cons, ih]

/-- Read after write, of any cell. -/
theorem Memory.read_write (m : Memory) (i j : Nat) (v : Byte) :
    (m.write i v).read j = if j = i then some v else m.read j := by
  split
  · next h => rw [h, Memory.read_write_same]
  · next h => exact Memory.read_write_other m v h

/-- The indices a write leaves listed: the written one and those listed before. -/
theorem Memory.mem_write {m : Memory} {i : Nat} {v : Byte} {c : Host.Cell}
    (h : c ∈ m.write i v) : c = (i, v) ∨ c ∈ m := by
  induction m with
  | nil => simpa [Memory.write] using h
  | cons d rest ih =>
    unfold Memory.write at h
    split at h
    · simpa using h
    · split at h
      · rcases List.mem_cons.mp h with h | h <;> simp [h]
      · rcases List.mem_cons.mp h with h | h
        · simp [h]
        · rcases ih h with h | h <;> simp [h]

/-- A write keeps the canonical form. -/
theorem Memory.wf_write {m : Memory} (i : Nat) (v : Byte) (h : m.wf) : (m.write i v).wf := by
  induction m with
  | nil => simp [Memory.write, Memory.wf]
  | cons c rest ih =>
    have hc := List.pairwise_cons.mp h
    unfold Memory.write
    split
    · next hlt =>
      refine List.pairwise_cons.mpr ⟨fun d hd => ?_, h⟩
      rcases List.mem_cons.mp hd with rfl | hd
      · exact hlt
      · exact Nat.lt_trans hlt (hc.1 d hd)
    · next hge =>
      split
      · next heq =>
        refine List.pairwise_cons.mpr ⟨fun d hd => ?_, hc.2⟩
        simpa [heq] using hc.1 d hd
      · next hne =>
        refine List.pairwise_cons.mpr ⟨fun d hd => ?_, ih hc.2⟩
        rcases Memory.mem_write hd with rfl | hd
        · simp only; omega
        · exact hc.1 d hd

@[simp] theorem Memory.ofSeqFrom_nil (i : Nat) : Memory.ofSeqFrom i [] = [] := rfl

theorem Memory.read_ofSeqFrom (xs : List Byte) (i j : Nat) :
    (Memory.ofSeqFrom i xs).read j = if i ≤ j then xs[j - i]? else none := by
  induction xs generalizing i with
  | nil => simp
  | cons x rest ih =>
    rw [Memory.ofSeqFrom, Memory.read_cons, ih]
    by_cases h1 : i = j
    · simp [h1]
    · by_cases h2 : i + 1 ≤ j
      · have : j - i = (j - (i + 1)) + 1 := by omega
        simp [h1, h2, this, show i ≤ j by omega]
      · simp [h1, h2, show ¬ i ≤ j by omega]

/-- Cell j of the buffer that holds xs is element j of xs. -/
@[simp] theorem Memory.read_ofSeq (xs : List Byte) (j : Nat) :
    (Memory.ofSeq xs).read j = xs[j]? := by
  simp [Memory.ofSeq, Memory.read_ofSeqFrom]

theorem Memory.map_fst_ofSeqFrom (xs : List Byte) (i : Nat) :
    (Memory.ofSeqFrom i xs).map Prod.fst = List.range' i xs.length := by
  induction xs generalizing i with
  | nil => rfl
  | cons x rest ih => simp [Memory.ofSeqFrom, ih, List.range'_succ]

/-- The indices of the buffer that holds xs. -/
@[simp] theorem Memory.map_fst_ofSeq (xs : List Byte) :
    (Memory.ofSeq xs).map Prod.fst = List.range xs.length := by
  simp [Memory.ofSeq, Memory.map_fst_ofSeqFrom, List.range_eq_range']

/-- The buffer that holds a sequence is canonical. -/
theorem Memory.wf_ofSeq (xs : List Byte) : (Memory.ofSeq xs).wf := by
  have h : List.Pairwise (· < ·) ((Memory.ofSeq xs).map Prod.fst) := by
    rw [Memory.map_fst_ofSeq]; exact List.pairwise_lt_range
  exact List.pairwise_map.mp h

theorem Memory.readFrom_eq_some {m : Memory} {n i : Nat} {xs : List Byte} :
    m.readFrom i n = some xs ↔ xs.length = n ∧ ∀ j < n, m.read (i + j) = xs[j]? := by
  induction n generalizing i xs with
  | zero =>
    simp only [Memory.readFrom, Option.some.injEq, Nat.not_lt_zero, false_implies, implies_true,
      and_true]
    constructor
    · rintro rfl; rfl
    · intro h; exact (List.length_eq_zero_iff.mp h).symm
  | succ k ih =>
    rw [Memory.readFrom]
    constructor
    · intro h
      split at h
      · cases h
      · next v hv =>
        split at h
        · cases h
        · next rest hr =>
          cases h
          obtain ⟨hlen, hcells⟩ := ih.mp hr
          refine ⟨by simp [hlen], fun j hj => ?_⟩
          cases j with
          | zero => simpa using hv
          | succ j =>
            have := hcells j (by omega)
            simpa [Nat.add_assoc, Nat.add_comm 1 j] using this
    · rintro ⟨hlen, hcells⟩
      cases xs with
      | nil => simp at hlen
      | cons x rest =>
        have h0 : m.read i = some x := by simpa using hcells 0 (by omega)
        have hr : m.readFrom (i + 1) k = some rest := by
          refine ih.mpr ⟨by simpa using hlen, fun j hj => ?_⟩
          have := hcells (j + 1) (by omega)
          simpa [Nat.add_assoc, Nat.add_comm 1 j] using this
        rw [h0, hr]

/-- Reading n cells gives xs exactly when xs has n elements and cell j holds element j. -/
theorem Memory.readSeq_eq_some {m : Memory} {n : Nat} {xs : List Byte} :
    m.readSeq n = some xs ↔ xs.length = n ∧ ∀ j < n, m.read j = xs[j]? := by
  simp [Memory.readSeq, Memory.readFrom_eq_some]

theorem Memory.readFrom_eq_none {m : Memory} {n i : Nat} :
    m.readFrom i n = none ↔ ∃ j < n, m.read (i + j) = none := by
  induction n generalizing i with
  | zero => simp [Memory.readFrom]
  | succ k ih =>
    rw [Memory.readFrom]
    constructor
    · intro h
      split at h
      · next hv => exact ⟨0, by omega, by simpa using hv⟩
      · split at h
        · next hr =>
          obtain ⟨j, hj, hn⟩ := ih.mp hr
          exact ⟨j + 1, by omega, by simpa [Nat.add_assoc, Nat.add_comm 1 j] using hn⟩
        · cases h
    · rintro ⟨j, hj, hn⟩
      split
      · rfl
      · next v hv =>
        have hr : m.readFrom (i + 1) k = none := by
          cases j with
          | zero => simp [hv] at hn
          | succ j =>
            exact ih.mpr ⟨j, by omega, by simpa [Nat.add_assoc, Nat.add_comm 1 j] using hn⟩
        rw [hr]

/-- Reading n cells has no value exactly when one of the cells has none. -/
theorem Memory.readSeq_eq_none {m : Memory} {n : Nat} :
    m.readSeq n = none ↔ ∃ j < n, m.read j = none := by
  simp [Memory.readSeq, Memory.readFrom_eq_none]

/-- Two buffers with the same n first cells give the same sequence. -/
theorem Memory.readSeq_congr {m m' : Memory} {n : Nat} (h : ∀ j < n, m.read j = m'.read j) :
    m.readSeq n = m'.readSeq n := by
  cases hm : m.readSeq n with
  | none =>
    obtain ⟨j, hj, hn⟩ := Memory.readSeq_eq_none.mp hm
    exact (Memory.readSeq_eq_none.mpr ⟨j, hj, by rw [← h j hj, hn]⟩).symm
  | some xs =>
    obtain ⟨hl, hc⟩ := Memory.readSeq_eq_some.mp hm
    exact (Memory.readSeq_eq_some.mpr ⟨hl, fun j hj => by rw [← h j hj, hc j hj]⟩).symm

/-- The cells of a canonical buffer whose indices are 0 to n-1 are all specified. -/
theorem Memory.read_of_map_fst {m : Memory} {i : Nat} (h : i ∈ m.map Prod.fst) :
    ∃ v, m.read i = some v := by
  induction m with
  | nil => simp at h
  | cons c rest ih =>
    rw [Memory.read_cons]
    split
    · exact ⟨_, rfl⟩
    · next hne =>
      rw [List.map_cons, List.mem_cons] at h
      rcases h with h | h
      · exact absurd h.symm hne
      · exact ih h

/-- A cell that is not listed has no value. -/
theorem Memory.read_eq_none {m : Memory} {i : Nat} (h : i ∉ m.map Prod.fst) :
    m.read i = none := by
  induction m with
  | nil => rfl
  | cons c rest ih =>
    simp only [List.map_cons, List.mem_cons, not_or] at h
    rw [Memory.read_cons, if_neg (Ne.symm h.1), ih h.2]

end Sys2Proof.Machine
end

