-- ==== Sys2Proof/Laws/State.lean ====
section
/-! SUPPORT. One lemma per field and update of State, each true by unfolding the update: what it writes
and what it leaves. Later proofs cite these and unfold no update. -/

namespace Sys2Proof.Machine

@[simp] theorem State.setErr_cfg (s : State) (c : BitVec 3) : (s.setErr c).cfg = s.cfg := rfl
@[simp] theorem State.setErr_cmd (s : State) (c : BitVec 3) : (s.setErr c).cmd = s.cmd := rfl
@[simp] theorem State.setErr_err (s : State) (c : BitVec 3) : (s.setErr c).err = c := rfl
@[simp] theorem State.setErr_ilen (s : State) (c : BitVec 3) : (s.setErr c).ilen = s.ilen := rfl
@[simp] theorem State.setErr_olen (s : State) (c : BitVec 3) : (s.setErr c).olen = s.olen := rfl
@[simp] theorem State.setErr_ibuf (s : State) (c : BitVec 3) : (s.setErr c).ibuf = s.ibuf := rfl
@[simp] theorem State.setErr_obuf (s : State) (c : BitVec 3) : (s.setErr c).obuf = s.obuf := rfl
@[simp] theorem State.setErr_pending (s : State) (c : BitVec 3) : (s.setErr c).pending = s.pending := rfl
@[simp] theorem State.setErr_answers (s : State) (c : BitVec 3) : (s.setErr c).answers = s.answers := rfl
@[simp] theorem State.setErr_mcap (s : State) (c : BitVec 3) : (s.setErr c).mcap = s.mcap := rfl

@[simp] theorem State.setOut_cfg (s : State) (xs : List Byte) : (s.setOut xs).cfg = s.cfg := rfl
@[simp] theorem State.setOut_cmd (s : State) (xs : List Byte) : (s.setOut xs).cmd = s.cmd := rfl
@[simp] theorem State.setOut_err (s : State) (xs : List Byte) : (s.setOut xs).err = s.err := rfl
@[simp] theorem State.setOut_ilen (s : State) (xs : List Byte) : (s.setOut xs).ilen = s.ilen := rfl
@[simp] theorem State.setOut_olen (s : State) (xs : List Byte) : (s.setOut xs).olen = BitVec.ofNat 16 xs.length := rfl
@[simp] theorem State.setOut_ibuf (s : State) (xs : List Byte) : (s.setOut xs).ibuf = s.ibuf := rfl
@[simp] theorem State.setOut_obuf (s : State) (xs : List Byte) : (s.setOut xs).obuf = Memory.ofSeq xs := rfl
@[simp] theorem State.setOut_pending (s : State) (xs : List Byte) : (s.setOut xs).pending = s.pending := rfl
@[simp] theorem State.setOut_answers (s : State) (xs : List Byte) : (s.setOut xs).answers = s.answers := rfl
@[simp] theorem State.setOut_mcap (s : State) (xs : List Byte) : (s.setOut xs).mcap = s.mcap := rfl

@[simp] theorem State.clearOut_cfg (s : State) : s.clearOut.cfg = s.cfg := rfl
@[simp] theorem State.clearOut_cmd (s : State) : s.clearOut.cmd = s.cmd := rfl
@[simp] theorem State.clearOut_err (s : State) : s.clearOut.err = s.err := rfl
@[simp] theorem State.clearOut_ilen (s : State) : s.clearOut.ilen = s.ilen := rfl
@[simp] theorem State.clearOut_olen (s : State) : s.clearOut.olen = 0 := rfl
@[simp] theorem State.clearOut_ibuf (s : State) : s.clearOut.ibuf = s.ibuf := rfl
@[simp] theorem State.clearOut_obuf (s : State) : s.clearOut.obuf = [] := rfl
@[simp] theorem State.clearOut_pending (s : State) : s.clearOut.pending = s.pending := rfl
@[simp] theorem State.clearOut_answers (s : State) : s.clearOut.answers = s.answers := rfl
@[simp] theorem State.clearOut_mcap (s : State) : s.clearOut.mcap = s.mcap := rfl

@[simp] theorem State.storeCmd_cfg (s : State) (w : Byte) : (s.storeCmd w).cfg = s.cfg := rfl
@[simp] theorem State.storeCmd_cmd (s : State) (w : Byte) : (s.storeCmd w).cmd = w := rfl
@[simp] theorem State.storeCmd_err (s : State) (w : Byte) : (s.storeCmd w).err = s.err := rfl
@[simp] theorem State.storeCmd_ilen (s : State) (w : Byte) : (s.storeCmd w).ilen = s.ilen := rfl
@[simp] theorem State.storeCmd_olen (s : State) (w : Byte) : (s.storeCmd w).olen = s.olen := rfl
@[simp] theorem State.storeCmd_ibuf (s : State) (w : Byte) : (s.storeCmd w).ibuf = s.ibuf := rfl
@[simp] theorem State.storeCmd_obuf (s : State) (w : Byte) : (s.storeCmd w).obuf = s.obuf := rfl
@[simp] theorem State.storeCmd_pending (s : State) (w : Byte) : (s.storeCmd w).pending = s.pending := rfl
@[simp] theorem State.storeCmd_answers (s : State) (w : Byte) : (s.storeCmd w).answers = s.answers := rfl
@[simp] theorem State.storeCmd_mcap (s : State) (w : Byte) : (s.storeCmd w).mcap = s.mcap := rfl

@[simp] theorem State.setIlen_cfg (s : State) (v : Half) : (s.setIlen v).cfg = s.cfg := rfl
@[simp] theorem State.setIlen_cmd (s : State) (v : Half) : (s.setIlen v).cmd = s.cmd := rfl
@[simp] theorem State.setIlen_err (s : State) (v : Half) : (s.setIlen v).err = s.err := rfl
@[simp] theorem State.setIlen_ilen (s : State) (v : Half) : (s.setIlen v).ilen = v := rfl
@[simp] theorem State.setIlen_olen (s : State) (v : Half) : (s.setIlen v).olen = s.olen := rfl
@[simp] theorem State.setIlen_ibuf (s : State) (v : Half) : (s.setIlen v).ibuf = s.ibuf := rfl
@[simp] theorem State.setIlen_obuf (s : State) (v : Half) : (s.setIlen v).obuf = s.obuf := rfl
@[simp] theorem State.setIlen_pending (s : State) (v : Half) : (s.setIlen v).pending = s.pending := rfl
@[simp] theorem State.setIlen_answers (s : State) (v : Half) : (s.setIlen v).answers = s.answers := rfl
@[simp] theorem State.setIlen_mcap (s : State) (v : Half) : (s.setIlen v).mcap = s.mcap := rfl

@[simp] theorem State.answer_cfg (s : State) (v : Half) : (s.answer v).cfg = s.cfg := rfl
@[simp] theorem State.answer_cmd (s : State) (v : Half) : (s.answer v).cmd = s.cmd := rfl
@[simp] theorem State.answer_err (s : State) (v : Half) : (s.answer v).err = s.err := rfl
@[simp] theorem State.answer_ilen (s : State) (v : Half) : (s.answer v).ilen = s.ilen := rfl
@[simp] theorem State.answer_olen (s : State) (v : Half) : (s.answer v).olen = s.olen := rfl
@[simp] theorem State.answer_ibuf (s : State) (v : Half) : (s.answer v).ibuf = s.ibuf := rfl
@[simp] theorem State.answer_obuf (s : State) (v : Half) : (s.answer v).obuf = s.obuf := rfl
@[simp] theorem State.answer_pending (s : State) (v : Half) : (s.answer v).pending = s.pending := rfl
@[simp] theorem State.answer_answers (s : State) (v : Half) : (s.answer v).answers = v :: s.answers := rfl
@[simp] theorem State.answer_mcap (s : State) (v : Half) : (s.answer v).mcap = s.mcap := rfl

@[simp] theorem State.withPending_cfg (s : State) (es : List HostEvent) : (s.withPending es).cfg = s.cfg := rfl
@[simp] theorem State.withPending_cmd (s : State) (es : List HostEvent) : (s.withPending es).cmd = s.cmd := rfl
@[simp] theorem State.withPending_err (s : State) (es : List HostEvent) : (s.withPending es).err = s.err := rfl
@[simp] theorem State.withPending_ilen (s : State) (es : List HostEvent) : (s.withPending es).ilen = s.ilen := rfl
@[simp] theorem State.withPending_olen (s : State) (es : List HostEvent) : (s.withPending es).olen = s.olen := rfl
@[simp] theorem State.withPending_ibuf (s : State) (es : List HostEvent) : (s.withPending es).ibuf = s.ibuf := rfl
@[simp] theorem State.withPending_obuf (s : State) (es : List HostEvent) : (s.withPending es).obuf = s.obuf := rfl
@[simp] theorem State.withPending_pending (s : State) (es : List HostEvent) : (s.withPending es).pending = es := rfl
@[simp] theorem State.withPending_answers (s : State) (es : List HostEvent) : (s.withPending es).answers = s.answers := rfl
@[simp] theorem State.withPending_mcap (s : State) (es : List HostEvent) : (s.withPending es).mcap = s.mcap := rfl

@[simp] theorem succeed_cfg (s : State) : (succeed s).cfg = s.cfg := rfl
@[simp] theorem succeed_cmd (s : State) : (succeed s).cmd = s.cmd := rfl
@[simp] theorem succeed_err (s : State) : (succeed s).err = 0 := rfl
@[simp] theorem succeed_ilen (s : State) : (succeed s).ilen = s.ilen := rfl
@[simp] theorem succeed_olen (s : State) : (succeed s).olen = s.olen := rfl
@[simp] theorem succeed_ibuf (s : State) : (succeed s).ibuf = s.ibuf := rfl
@[simp] theorem succeed_obuf (s : State) : (succeed s).obuf = s.obuf := rfl
@[simp] theorem succeed_pending (s : State) : (succeed s).pending = s.pending := rfl
@[simp] theorem succeed_answers (s : State) : (succeed s).answers = s.answers := rfl
@[simp] theorem succeed_mcap (s : State) : (succeed s).mcap = s.mcap := rfl

@[simp] theorem fail_cfg (k : ErrorKind) (s : State) : (fail k s).cfg = s.cfg := rfl
@[simp] theorem fail_cmd (k : ErrorKind) (s : State) : (fail k s).cmd = s.cmd := rfl
@[simp] theorem fail_err (k : ErrorKind) (s : State) : (fail k s).err = k.code := rfl
@[simp] theorem fail_ilen (k : ErrorKind) (s : State) : (fail k s).ilen = s.ilen := rfl
@[simp] theorem fail_olen (k : ErrorKind) (s : State) : (fail k s).olen = 0 := rfl
@[simp] theorem fail_ibuf (k : ErrorKind) (s : State) : (fail k s).ibuf = s.ibuf := rfl
@[simp] theorem fail_obuf (k : ErrorKind) (s : State) : (fail k s).obuf = [] := rfl
@[simp] theorem fail_pending (k : ErrorKind) (s : State) : (fail k s).pending = s.pending := rfl
@[simp] theorem fail_answers (k : ErrorKind) (s : State) : (fail k s).answers = s.answers := rfl
@[simp] theorem fail_mcap (k : ErrorKind) (s : State) : (fail k s).mcap = s.mcap := rfl

@[simp] theorem hostReset_cfg (s : State) : (hostReset s).cfg = s.cfg := rfl
@[simp] theorem hostReset_cmd (s : State) : (hostReset s).cmd = 0 := rfl
@[simp] theorem hostReset_err (s : State) : (hostReset s).err = 0 := rfl
@[simp] theorem hostReset_ilen (s : State) : (hostReset s).ilen = 0 := rfl
@[simp] theorem hostReset_olen (s : State) : (hostReset s).olen = 0 := rfl
@[simp] theorem hostReset_ibuf (s : State) : (hostReset s).ibuf = [] := rfl
@[simp] theorem hostReset_obuf (s : State) : (hostReset s).obuf = [] := rfl
@[simp] theorem hostReset_pending (s : State) : (hostReset s).pending = s.pending := rfl
@[simp] theorem hostReset_answers (s : State) : (hostReset s).answers = s.answers := rfl
@[simp] theorem hostReset_mcap (s : State) : (hostReset s).mcap = s.mcap := rfl

@[simp] theorem State.writeIbufCell_cfg (s : State) (i : Nat) (v : Byte) :
    (s.writeIbufCell i v).cfg = s.cfg := by
  unfold State.writeIbufCell; split <;> rfl

@[simp] theorem State.writeIbufCell_cmd (s : State) (i : Nat) (v : Byte) :
    (s.writeIbufCell i v).cmd = s.cmd := by
  unfold State.writeIbufCell; split <;> rfl

@[simp] theorem State.writeIbufCell_err (s : State) (i : Nat) (v : Byte) :
    (s.writeIbufCell i v).err = s.err := by
  unfold State.writeIbufCell; split <;> rfl

@[simp] theorem State.writeIbufCell_ilen (s : State) (i : Nat) (v : Byte) :
    (s.writeIbufCell i v).ilen = s.ilen := by
  unfold State.writeIbufCell; split <;> rfl

@[simp] theorem State.writeIbufCell_olen (s : State) (i : Nat) (v : Byte) :
    (s.writeIbufCell i v).olen = s.olen := by
  unfold State.writeIbufCell; split <;> rfl

@[simp] theorem State.writeIbufCell_obuf (s : State) (i : Nat) (v : Byte) :
    (s.writeIbufCell i v).obuf = s.obuf := by
  unfold State.writeIbufCell; split <;> rfl

@[simp] theorem State.writeIbufCell_pending (s : State) (i : Nat) (v : Byte) :
    (s.writeIbufCell i v).pending = s.pending := by
  unfold State.writeIbufCell; split <;> rfl

@[simp] theorem State.writeIbufCell_answers (s : State) (i : Nat) (v : Byte) :
    (s.writeIbufCell i v).answers = s.answers := by
  unfold State.writeIbufCell; split <;> rfl

@[simp] theorem State.writeIbufCell_mcap (s : State) (i : Nat) (v : Byte) :
    (s.writeIbufCell i v).mcap = s.mcap := by
  unfold State.writeIbufCell; split <;> rfl

theorem State.writeIbufCell_ibuf (s : State) (i : Nat) (v : Byte) :
    (s.writeIbufCell i v).ibuf = if i < s.mcap then s.ibuf.write i v else s.ibuf := by
  unfold State.writeIbufCell; split <;> rfl

@[simp] theorem State.writeIbufFrom_cfg (s : State) (i : Nat) (xs : List Byte) :
    (s.writeIbufFrom i xs).cfg = s.cfg := by
  induction xs generalizing s i with
  | nil => rfl
  | cons x rest ih => simp [State.writeIbufFrom, ih]

@[simp] theorem State.writeIbufFrom_cmd (s : State) (i : Nat) (xs : List Byte) :
    (s.writeIbufFrom i xs).cmd = s.cmd := by
  induction xs generalizing s i with
  | nil => rfl
  | cons x rest ih => simp [State.writeIbufFrom, ih]

@[simp] theorem State.writeIbufFrom_err (s : State) (i : Nat) (xs : List Byte) :
    (s.writeIbufFrom i xs).err = s.err := by
  induction xs generalizing s i with
  | nil => rfl
  | cons x rest ih => simp [State.writeIbufFrom, ih]

@[simp] theorem State.writeIbufFrom_ilen (s : State) (i : Nat) (xs : List Byte) :
    (s.writeIbufFrom i xs).ilen = s.ilen := by
  induction xs generalizing s i with
  | nil => rfl
  | cons x rest ih => simp [State.writeIbufFrom, ih]

@[simp] theorem State.writeIbufFrom_olen (s : State) (i : Nat) (xs : List Byte) :
    (s.writeIbufFrom i xs).olen = s.olen := by
  induction xs generalizing s i with
  | nil => rfl
  | cons x rest ih => simp [State.writeIbufFrom, ih]

@[simp] theorem State.writeIbufFrom_obuf (s : State) (i : Nat) (xs : List Byte) :
    (s.writeIbufFrom i xs).obuf = s.obuf := by
  induction xs generalizing s i with
  | nil => rfl
  | cons x rest ih => simp [State.writeIbufFrom, ih]

@[simp] theorem State.writeIbufFrom_pending (s : State) (i : Nat) (xs : List Byte) :
    (s.writeIbufFrom i xs).pending = s.pending := by
  induction xs generalizing s i with
  | nil => rfl
  | cons x rest ih => simp [State.writeIbufFrom, ih]

@[simp] theorem State.writeIbufFrom_answers (s : State) (i : Nat) (xs : List Byte) :
    (s.writeIbufFrom i xs).answers = s.answers := by
  induction xs generalizing s i with
  | nil => rfl
  | cons x rest ih => simp [State.writeIbufFrom, ih]

@[simp] theorem State.writeIbufFrom_mcap (s : State) (i : Nat) (xs : List Byte) :
    (s.writeIbufFrom i xs).mcap = s.mcap := by
  induction xs generalizing s i with
  | nil => rfl
  | cons x rest ih => simp [State.writeIbufFrom, ih]

@[simp] theorem State.setErr_readIn (s : State) (c : BitVec 3) : (s.setErr c).readIn = s.readIn := rfl
@[simp] theorem State.setOut_readIn (s : State) (xs : List Byte) : (s.setOut xs).readIn = s.readIn := rfl
@[simp] theorem State.clearOut_readIn (s : State) : s.clearOut.readIn = s.readIn := rfl
@[simp] theorem State.storeCmd_readIn (s : State) (w : Byte) : (s.storeCmd w).readIn = s.readIn := rfl
@[simp] theorem State.answer_readIn (s : State) (v : Half) : (s.answer v).readIn = s.readIn := rfl
@[simp] theorem State.withPending_readIn (s : State) (es : List HostEvent) : (s.withPending es).readIn = s.readIn := rfl
@[simp] theorem succeed_readIn (s : State) : (succeed s).readIn = s.readIn := rfl
@[simp] theorem fail_readIn (k : ErrorKind) (s : State) : (fail k s).readIn = s.readIn := rfl
@[simp] theorem State.setErr_readOut (s : State) (c : BitVec 3) : (s.setErr c).readOut = s.readOut := rfl
@[simp] theorem State.storeCmd_readOut (s : State) (w : Byte) : (s.storeCmd w).readOut = s.readOut := rfl
@[simp] theorem State.setIlen_readOut (s : State) (v : Half) : (s.setIlen v).readOut = s.readOut := rfl
@[simp] theorem State.answer_readOut (s : State) (v : Half) : (s.answer v).readOut = s.readOut := rfl
@[simp] theorem State.withPending_readOut (s : State) (es : List HostEvent) : (s.withPending es).readOut = s.readOut := rfl
@[simp] theorem succeed_readOut (s : State) : (succeed s).readOut = s.readOut := rfl
@[simp] theorem State.writeIbufFrom_readOut (s : State) (i : Nat) (xs : List Byte) :
    (s.writeIbufFrom i xs).readOut = s.readOut := by
  simp [State.readOut]

theorem State.reset_buffers_wf : State.reset.ibuf.wf ∧ State.reset.obuf.wf := by decide

end Sys2Proof.Machine
end

