-- ==== Sys2Proof/Laws/Ops.lean ====
section
/-! SUPPORT. One lemma per shared operation: what the template of the commands that take IN, the end of
a command, XFER's copy and the answer to a cell read can do. Proofs about commands cite these and
unfold none of them. -/

namespace Sys2Proof.Machine

/-! ## The end of a command -/

@[simp] theorem finish_error (k : ErrorKind) (s : State) : finish (.error k) s = fail k s := rfl

theorem finish_ok_fits {xs : List Byte} {s : State} (h : xs.length ≤ s.mcap) :
    finish (.ok xs) s = succeed (s.setOut xs) := by
  simp [finish, Nat.not_lt.mpr h]

theorem finish_ok_over {xs : List Byte} {s : State} (h : s.mcap < xs.length) :
    finish (.ok xs) s = fail .capacityExceeded s := by
  simp [finish, h]

/-- The end of a command either fails with some kind or stores a result that fits. -/
theorem finish_cases (r : Seq) (s : State) :
    (∃ k, finish r s = fail k s ∧
      (r = .error k ∨ k = .capacityExceeded ∧ ∃ xs, r = .ok xs ∧ s.mcap < xs.length)) ∨
    ∃ xs, r = .ok xs ∧ xs.length ≤ s.mcap ∧ finish r s = succeed (s.setOut xs) := by
  cases r with
  | error k => exact .inl ⟨k, rfl, .inl rfl⟩
  | ok xs =>
    by_cases h : s.mcap < xs.length
    · exact .inl ⟨_, finish_ok_over h, .inr ⟨rfl, xs, rfl, h⟩⟩
    · exact .inr ⟨xs, rfl, Nat.not_lt.mp h, finish_ok_fits (Nat.not_lt.mp h)⟩

/-- What the end of a command leaves as it was. -/
theorem finish_frame (r : Seq) (s : State) :
    (finish r s).cfg = s.cfg ∧ (finish r s).cmd = s.cmd ∧ (finish r s).ilen = s.ilen ∧
      (finish r s).ibuf = s.ibuf ∧ (finish r s).pending = s.pending ∧
      (finish r s).answers = s.answers := by
  obtain ⟨k, h, -⟩ | ⟨xs, -, -, h⟩ := finish_cases r s <;> simp [h]

/-! ## The template -/

@[simp] theorem noLengthError_eq (k : Nat) : noLengthError k = none := rfl

theorem groupSizeError_fits {limit k : Nat} (h : k ≤ limit) : groupSizeError limit k = none :=
  if_neg (Nat.not_lt.mpr h)

theorem groupSizeError_over {limit k : Nat} (h : limit < k) :
    groupSizeError limit k = some .invalidGroupSize :=
  if_pos h

theorem outputSizeError_fits {cap k : Nat} {len : Nat → Nat} (h : len k ≤ cap) :
    outputSizeError cap len k = none :=
  if_neg (Nat.not_lt.mpr h)

theorem outputSizeError_over {cap k : Nat} {len : Nat → Nat} (h : cap < len k) :
    outputSizeError cap len k = some .capacityExceeded :=
  if_pos h

theorem runOnInput_over {w : Byte} {le : Nat → Option ErrorKind} {fn : List Byte → Seq} {s : State}
    (h : s.mcap < s.ilen.toNat) :
    runOnInput w le fn s = .next (fail .capacityExceeded (s.storeCmd w)) := by
  simp [runOnInput, h]

theorem runOnInput_lengthError {w : Byte} {le : Nat → Option ErrorKind} {fn : List Byte → Seq}
    {s : State} {k : ErrorKind} (h : s.ilen.toNat ≤ s.mcap) (hk : le s.ilen.toNat = some k) :
    runOnInput w le fn s = .next (fail k (s.storeCmd w)) := by
  simp [runOnInput, Nat.not_lt.mpr h, hk]

theorem runOnInput_unwritten {w : Byte} {le : Nat → Option ErrorKind} {fn : List Byte → Seq}
    {s : State} (h : s.ilen.toNat ≤ s.mcap) (hk : le s.ilen.toNat = none) (hr : s.readIn = none) :
    runOnInput w le fn s = .refused .unwrittenInputCell := by
  simp [runOnInput, Nat.not_lt.mpr h, hk, hr]

theorem runOnInput_ready {w : Byte} {le : Nat → Option ErrorKind} {fn : List Byte → Seq}
    {s : State} {xs : List Byte} (h : s.ilen.toNat ≤ s.mcap) (hk : le s.ilen.toNat = none)
    (hr : s.readIn = some xs) :
    runOnInput w le fn s = .next (finish (fn xs) (s.storeCmd w)) := by
  simp [runOnInput, Nat.not_lt.mpr h, hk, hr]

/-- Everything the template can do when it answers a next state. -/
theorem runOnInput_cases {w : Byte} {le : Nat → Option ErrorKind} {fn : List Byte → Seq}
    {s t : State} (h : runOnInput w le fn s = .next t) :
    (s.mcap < s.ilen.toNat ∧ t = fail .capacityExceeded (s.storeCmd w)) ∨
    (s.ilen.toNat ≤ s.mcap ∧ ∃ k, le s.ilen.toNat = some k ∧ t = fail k (s.storeCmd w)) ∨
    (s.ilen.toNat ≤ s.mcap ∧ le s.ilen.toNat = none ∧
      ∃ xs, s.readIn = some xs ∧ t = finish (fn xs) (s.storeCmd w)) := by
  by_cases hc : s.mcap < s.ilen.toNat
  · rw [runOnInput_over hc] at h; cases h; exact .inl ⟨hc, rfl⟩
  · have hc' := Nat.not_lt.mp hc
    cases hk : le s.ilen.toNat with
    | some k => rw [runOnInput_lengthError hc' hk] at h; cases h; exact .inr (.inl ⟨hc', k, rfl, rfl⟩)
    | none =>
      cases hr : s.readIn with
      | none => rw [runOnInput_unwritten hc' hk hr] at h; cases h
      | some xs =>
        rw [runOnInput_ready hc' hk hr] at h; cases h
        exact .inr (.inr ⟨hc', rfl, xs, rfl, rfl⟩)

/-- The template never faults, and refuses only an input that was not written. -/
theorem runOnInput_stops {w : Byte} {le : Nat → Option ErrorKind} {fn : List Byte → Seq} {s : State} :
    (∃ t, runOnInput w le fn s = .next t) ∨
    (runOnInput w le fn s = .refused .unwrittenInputCell ∧ s.ilen.toNat ≤ s.mcap ∧
      le s.ilen.toNat = none ∧ s.readIn = none) := by
  by_cases hc : s.mcap < s.ilen.toNat
  · exact .inl ⟨_, runOnInput_over hc⟩
  · have hc' := Nat.not_lt.mp hc
    cases hk : le s.ilen.toNat with
    | some k => exact .inl ⟨_, runOnInput_lengthError hc' hk⟩
    | none =>
      cases hr : s.readIn with
      | none => exact .inr ⟨runOnInput_unwritten hc' hk hr, hc', rfl, rfl⟩
      | some xs => exact .inl ⟨_, runOnInput_ready hc' hk hr⟩

/-- What the template leaves as it was, and that CMD holds the word. -/
theorem runOnInput_frame {w : Byte} {le : Nat → Option ErrorKind} {fn : List Byte → Seq}
    {s t : State} (h : runOnInput w le fn s = .next t) :
    t.cfg = s.cfg ∧ t.cmd = w ∧ t.ilen = s.ilen ∧ t.ibuf = s.ibuf ∧ t.pending = s.pending ∧
      t.answers = s.answers := by
  obtain ⟨-, rfl⟩ | ⟨-, k, -, rfl⟩ | ⟨-, -, xs, -, rfl⟩ := runOnInput_cases h
  · simp
  · simp
  · simpa using finish_frame (fn xs) (s.storeCmd w)

/-! ## Input, output and XFER's copy -/

/-- IN is xs exactly when ILEN is its length and cell i holds element i. -/
theorem State.readIn_eq_some {s : State} {xs : List Byte} :
    s.readIn = some xs ↔ xs.length = s.ilen.toNat ∧ ∀ j < s.ilen.toNat, s.ibuf.read j = xs[j]? :=
  Memory.readSeq_eq_some

theorem State.readIn_eq_none {s : State} :
    s.readIn = none ↔ ∃ j < s.ilen.toNat, s.ibuf.read j = none :=
  Memory.readSeq_eq_none

theorem State.readOut_eq_some {s : State} {xs : List Byte} :
    s.readOut = some xs ↔ xs.length = s.olen.toNat ∧ ∀ j < s.olen.toNat, s.obuf.read j = xs[j]? :=
  Memory.readSeq_eq_some

/-- MCAP is at least 8 and at most 65535 (`00_scope.md` R10). -/
theorem State.mcap_bounds (s : State) : 8 ≤ s.mcap ∧ s.mcap ≤ 65535 := by
  have := s.cfg.mcapOver8.isLt
  simp only [State.mcap, Config.mcap]; omega

/-- A result that fits in OBUF has its length in OLEN. -/
theorem olen_ofNat {n : Nat} (h : n ≤ 65535) : (BitVec.ofNat 16 n).toNat = n := by
  simp [BitVec.toNat_ofNat]; omega

/-- XFER's copy: cell j of IBUF is the element of xs that was written there, or as before. -/
theorem State.read_writeIbufFrom (s : State) (i : Nat) (xs : List Byte)
    (h : i + xs.length ≤ s.mcap) (j : Nat) :
    (s.writeIbufFrom i xs).ibuf.read j =
      if i ≤ j ∧ j < i + xs.length then xs[j - i]? else s.ibuf.read j := by
  induction xs generalizing s i with
  | nil => simp [State.writeIbufFrom]
  | cons x rest ih =>
    simp only [List.length_cons] at h
    have hi : i < s.mcap := by omega
    rw [State.writeIbufFrom, ih _ _ (by simp; omega), State.writeIbufCell_ibuf, if_pos hi,
      Memory.read_write]
    simp only [List.length_cons]
    by_cases h1 : j = i
    · subst h1
      simp [show ¬ (j + 1 ≤ j) by omega]
    · by_cases h2 : i + 1 ≤ j ∧ j < i + 1 + rest.length
      · have : j - i = (j - (i + 1)) + 1 := by omega
        rw [if_pos h2, if_pos (by omega), this, List.getElem?_cons_succ]
      · rw [if_neg h2, if_neg h1, if_neg (by omega)]

/-- XFER's copy leaves every other cell of IBUF as it was, in every state. -/
theorem State.read_writeIbufFrom_other (s : State) (i : Nat) (xs : List Byte) {j : Nat}
    (h : j < i ∨ i + xs.length ≤ j) : (s.writeIbufFrom i xs).ibuf.read j = s.ibuf.read j := by
  induction xs generalizing s i with
  | nil => rfl
  | cons x rest ih =>
    simp only [List.length_cons] at h
    rw [State.writeIbufFrom, ih _ _ (by omega), State.writeIbufCell_ibuf]
    split
    · rw [Memory.read_write, if_neg (by omega)]
    · rfl

/-- The writes of the copy keep IBUF canonical and inside MCAP. -/
theorem State.wf_writeIbufCell {s : State} (i : Nat) (v : Byte) (h : s.ibuf.wf)
    (hb : ∀ c ∈ s.ibuf, c.1 < s.mcap) :
    (s.writeIbufCell i v).ibuf.wf ∧ ∀ c ∈ (s.writeIbufCell i v).ibuf, c.1 < s.mcap := by
  rw [State.writeIbufCell_ibuf]
  split
  · next hi =>
    refine ⟨Memory.wf_write i v h, fun c hc => ?_⟩
    rcases Memory.mem_write hc with rfl | hc
    · exact hi
    · exact hb c hc
  · exact ⟨h, hb⟩

theorem State.wf_writeIbufFrom {s : State} (i : Nat) (xs : List Byte) (h : s.ibuf.wf)
    (hb : ∀ c ∈ s.ibuf, c.1 < s.mcap) :
    (s.writeIbufFrom i xs).ibuf.wf ∧ ∀ c ∈ (s.writeIbufFrom i xs).ibuf, c.1 < s.mcap := by
  induction xs generalizing s i with
  | nil => exact ⟨h, hb⟩
  | cons x rest ih =>
    obtain ⟨h1, h2⟩ := State.wf_writeIbufCell i x h hb
    simpa [State.writeIbufFrom] using ih (i + 1) h1 (by simpa using h2)

/-- Everything XFER can do. -/
theorem execXfer_cases (s : State) :
    (s.readOut = none ∧ execXfer s = .refused .unspecifiedResultCell) ∨
    ∃ xs, s.readOut = some xs ∧ execXfer s =
      .next (succeed (((s.storeCmd (encodeWord .xfer)).writeIbufFrom 0 xs).setIlen s.olen)) := by
  cases h : s.readOut with
  | none => exact .inl ⟨rfl, by simp [execXfer, h]⟩
  | some xs => exact .inr ⟨xs, rfl, by simp [execXfer, h]⟩

/-! ## Host reads of cells -/

/-- Everything the answer to a host read of a cell can be. -/
theorem answerCell_cases (i : Nat) (v : Option Byte) (s : State) :
    (s.mcap ≤ i ∧ answerCell i v s = .fault .noSuchCell) ∨
    (i < s.mcap ∧ v = none ∧ answerCell i v s = .refused .unspecifiedCell) ∨
    ∃ b, i < s.mcap ∧ v = some b ∧ answerCell i v s = .next (s.answer (b.setWidth 16)) := by
  by_cases h : s.mcap ≤ i
  · exact .inl ⟨h, by simp [answerCell, h]⟩
  · cases v with
    | none => exact .inr (.inl ⟨Nat.lt_of_not_le h, rfl, by simp [answerCell, h]⟩)
    | some b => exact .inr (.inr ⟨b, Nat.lt_of_not_le h, rfl, by simp [answerCell, h]⟩)

end Sys2Proof.Machine
end

