-- ==== Sys2Proof/Laws/Commands.lean ====
section
/-! SUPPORT. What each command is over the shared operations. Proofs about all commands that take IN
cite `exec_takesInput` and then the lemmas of `runOnInput`. -/

namespace Sys2Proof.Machine

@[simp] theorem exec_nop (s : State) :
    exec .nop s = .next (succeed (s.storeCmd (encodeWord .nop))) := rfl

@[simp] theorem exec_geom (a : Alphabet) (s : State) :
    exec (.geom a) s = .next (succeed ((s.storeCmd (encodeWord (.geom a))).setOut (geom a))) := rfl

theorem exec_xfer (s : State) : exec .xfer s = execXfer s := rfl

/-- The error the length of IN alone decides, per command. -/
def lengthErrorOf (i : Instr) (cap : Nat) : Nat → Option ErrorKind :=
  match i with
  | .pack a => groupSizeError (groupBytes (symbolBits a))
  | .unpack a => groupSizeError (groupSyms (symbolBits a))
  | .pada f a => outputSizeError cap (paddedLength a f)
  | .encode f a => outputSizeError cap (encodedLength a f)
  | .nop => noLengthError
  | .v2c _ => noLengthError
  | .c2v _ _ => noLengthError
  | .pads _ => noLengthError
  | .decode _ => noLengthError
  | .geom _ => noLengthError
  | .xfer => noLengthError

/-- The function applied to IN (`30_encoding.md` R73), per command. -/
def functionOf (i : Instr) : List Byte → Seq :=
  match i with
  | .pack a => pack (symbolBits a)
  | .unpack a => unpack (symbolBits a)
  | .v2c a => valueToChar a
  | .c2v f a => charToValue a f
  | .pada f a => padAppend a f
  | .pads _ => padStrip
  | .encode f a => encodeText a f
  | .decode a => decodeText a
  | .nop => fun _ => .ok []
  | .geom _ => fun _ => .ok []
  | .xfer => fun _ => .ok []

/-- Every command that takes IN is the template with its function. -/
theorem exec_takesInput {i : Instr} (h : takesInput i = true) (s : State) :
    exec i s = runOnInput (encodeWord i) (lengthErrorOf i s.mcap) (functionOf i) s := by
  cases i with
  | nop => cases h
  | geom a => cases h
  | xfer => cases h
  | pack a => rfl
  | unpack a => rfl
  | v2c a => rfl
  | c2v f a => rfl
  | pada f a => rfl
  | pads a => rfl
  | encode f a => rfl
  | decode a => rfl

/-- The three commands that take no input. -/
theorem takesInput_eq_false {i : Instr} (h : takesInput i = false) :
    i = .nop ∨ (∃ a, i = .geom a) ∨ i = .xfer := by
  cases i with
  | nop => exact .inl rfl
  | geom a => exact .inr (.inl ⟨a, rfl⟩)
  | xfer => exact .inr (.inr rfl)
  | pack a => cases h
  | unpack a => cases h
  | v2c a => cases h
  | c2v f a => cases h
  | pada f a => cases h
  | pads a => cases h
  | encode f a => cases h
  | decode a => cases h

/-- No command faults. -/
theorem exec_ne_fault (i : Instr) (s : State) (r : Fault) : exec i s ≠ .fault r := by
  cases h : takesInput i with
  | true =>
    rw [exec_takesInput h]
    rcases runOnInput_stops (w := encodeWord i) (le := lengthErrorOf i s.mcap)
      (fn := functionOf i) (s := s) with ⟨t, ht⟩ | ⟨ht, -⟩ <;> simp [ht]
  | false =>
    rcases takesInput_eq_false h with rfl | ⟨a, rfl⟩ | rfl
    · simp
    · simp
    · rw [exec_xfer]
      rcases execXfer_cases s with ⟨-, hx⟩ | ⟨xs, -, hx⟩ <;> simp [hx]

end Sys2Proof.Machine
end

