-- ==== Sys2Proof/Laws/Functions.lean ====
section
/-! SUPPORT. One specification lemma per helper of the component functions: the lookup in a table, the
element-wise map, the stages, the chunks and the positional number. -/

namespace Sys2Proof.Machine

/-- A place found in a table holds the character. -/
theorem indexOf_eq_some {c : Byte} {tab : List Byte} {v : Nat} (h : indexOf c tab = some v) :
    tab[v]? = some c := by
  induction tab generalizing v with
  | nil => cases h
  | cons d rest ih =>
    rw [indexOf] at h
    split at h
    · next hd => cases h; simp [hd]
    · split at h
      · cases h
      · next u hu => cases h; simpa using ih hu

/-- No place is found exactly for a character that is not in the table. -/
theorem indexOf_eq_none {c : Byte} {tab : List Byte} : indexOf c tab = none ↔ c ∉ tab := by
  induction tab with
  | nil => simp [indexOf]
  | cons d rest ih =>
    rw [indexOf]
    split
    · next hd => simp [hd]
    · next hd =>
      cases hr : indexOf c rest with
      | none => simp [Ne.symm hd, ih.mp hr]
      | some v =>
        have : ¬ c ∉ rest := fun hn => by simp [ih.mpr hn] at hr
        simp [this]

/-- In a table without repeats the place of the character at v is v. -/
theorem indexOf_getElem {c : Byte} {tab : List Byte} {v : Nat} (hn : tab.Nodup)
    (h : tab[v]? = some c) : indexOf c tab = some v := by
  cases hi : indexOf c tab with
  | none => exact absurd (List.mem_of_getElem? h) (indexOf_eq_none.mp hi)
  | some u =>
    have hu := indexOf_eq_some hi
    obtain ⟨h1, e1⟩ := List.getElem?_eq_some_iff.mp h
    obtain ⟨h2, e2⟩ := List.getElem?_eq_some_iff.mp hu
    exact congrArg some ((List.Nodup.getElem_inj_iff hn).mp (e2.trans e1.symm))

/-- The element-wise map succeeds with ys exactly when every element maps to its element of ys. -/
theorem mapCells_eq_ok {fn : Byte → Except ErrorKind Byte} {xs ys : List Byte} :
    mapCells fn xs = .ok ys ↔ List.Forall₂ (fun x y => fn x = .ok y) xs ys := by
  induction xs generalizing ys with
  | nil => simp [mapCells, eq_comm]
  | cons x rest ih =>
    rw [mapCells]
    cases hx : fn x with
    | error k =>
      simp only [reduceCtorEq, List.forall₂_cons_left_iff, hx, false_and, exists_const]
    | ok y =>
      cases hr : mapCells fn rest with
      | error k =>
        simp only [reduceCtorEq, List.forall₂_cons_left_iff, hx, Except.ok.injEq, false_iff,
          not_exists, not_and]
        intro b u _ hu _
        rw [ih.mpr hu] at hr; cases hr
      | ok zs =>
        simp only [Except.ok.injEq, List.forall₂_cons_left_iff, hx]
        constructor
        · rintro rfl; exact ⟨y, zs, rfl, ih.mp hr, rfl⟩
        · rintro ⟨b, u, rfl, hu, rfl⟩
          rw [ih.mpr hu] at hr; cases hr; rfl

/-- Where every failing element fails with kind k and one fails, the map fails with kind k. -/
theorem mapCells_eq_error {fn : Byte → Except ErrorKind Byte} {xs : List Byte} {k : ErrorKind}
    (hk : ∀ x ∈ xs, ∀ k', fn x = .error k' → k' = k) (hx : ∃ x ∈ xs, ∃ k', fn x = .error k') :
    mapCells fn xs = .error k := by
  induction xs with
  | nil => simp at hx
  | cons x rest ih =>
    rw [mapCells]
    cases h : fn x with
    | error k' => simp [hk x (by simp) k' h]
    | ok y =>
      have hrest : ∃ z ∈ rest, ∃ k', fn z = .error k' := by
        obtain ⟨z, hz, k', hk'⟩ := hx
        rcases List.mem_cons.mp hz with rfl | hz
        · rw [h] at hk'; cases hk'
        · exact ⟨z, hz, k', hk'⟩
      simp [ih (fun z hz => hk z (by simp [hz])) hrest]

@[simp] theorem andThen_error (k : ErrorKind) (fn : List Byte → Seq) :
    andThen (.error k) fn = .error k := rfl

@[simp] theorem andThen_ok (xs : List Byte) (fn : List Byte → Seq) :
    andThen (.ok xs) fn = fn xs := rfl

@[simp] theorem concatGroups_nil (fn : List Byte → Seq) : concatGroups fn [] = .ok [] := rfl

theorem concatGroups_cons_error {fn : List Byte → Seq} {g : List Byte} {rest : List (List Byte)}
    {k : ErrorKind} (h : fn g = .error k) : concatGroups fn (g :: rest) = .error k := by
  simp [concatGroups, h]

/-- After a first group that succeeds, the rest decides. -/
theorem concatGroups_cons_ok {fn : List Byte → Seq} {g ys : List Byte} {rest : List (List Byte)}
    (h : fn g = .ok ys) :
    concatGroups fn (g :: rest) = andThen (concatGroups fn rest) fun zs => .ok (ys ++ zs) := by
  rw [concatGroups, h]
  cases concatGroups fn rest <;> rfl

@[simp] theorem chunks_nil (size : Nat) : chunks size [] = [] := rfl

/-- Two bounds that are both enough give the same chunks. -/
theorem chunksUpTo_congr {size a b : Nat} {zs : List Byte} (hs : 1 ≤ size) (ha : zs.length ≤ a)
    (hb : zs.length ≤ b) : chunksUpTo size a zs = chunksUpTo size b zs := by
  induction a generalizing b zs with
  | zero =>
    have hz : zs = [] := List.length_eq_zero_iff.mp (by omega)
    subst hz
    cases b <;> rfl
  | succ a ih =>
    cases zs with
    | nil => cases b <;> rfl
    | cons z zs =>
      cases b with
      | zero => simp at hb
      | succ b =>
        simp only [List.length_cons] at ha hb
        rw [chunksUpTo, chunksUpTo,
          ih (b := b) (by simp only [List.length_drop, List.length_cons]; omega)
            (by simp only [List.length_drop, List.length_cons]; omega)]

/-- The chunks of a sequence that is not empty: its first g elements, then the chunks of the rest. -/
theorem chunks_cons {size : Nat} {xs : List Byte} (hs : 1 ≤ size) (h : xs ≠ []) :
    chunks size xs = xs.take size :: chunks size (xs.drop size) := by
  cases xs with
  | nil => exact absurd rfl h
  | cons x rest =>
    rw [chunks, List.length_cons, chunksUpTo, chunks,
      chunksUpTo_congr hs (by simp only [List.length_drop, List.length_cons]; omega)
        (Nat.le_refl _)]

/-- The digits of a positional number in two parts. -/
theorem positional_append (b : Nat) (xs ys : List Nat) :
    positional b (xs ++ ys) = positional b xs * b ^ ys.length + positional b ys := by
  induction xs with
  | nil => simp [positional]
  | cons x rest ih =>
    simp only [List.cons_append, positional, ih, List.length_append, pow_add]
    ring

/-- A positional number of k digits is below base^k. -/
theorem positional_lt {b : Nat} {xs : List Nat} (h : ∀ x ∈ xs, x < b) :
    positional b xs < b ^ xs.length := by
  induction xs with
  | nil => simp [positional]
  | cons x rest ih =>
    have h1 : x + 1 ≤ b := h x (by simp)
    have h2 := ih fun y hy => h y (by simp [hy])
    have h3 : (x + 1) * b ^ rest.length ≤ b * b ^ rest.length := Nat.mul_le_mul_right _ h1
    simp only [positional, List.length_cons, pow_succ]
    nlinarith

@[simp] theorem positional_zeros (b k : Nat) : positional b (List.replicate k 0) = 0 := by
  induction k with
  | zero => rfl
  | succ k ih => simp [List.replicate_succ, positional, ih]

/-- The four group geometries (`41_bitwidth.md` R114): bits, bytes and symbols of a full group. -/
theorem groupGeometry (a : Alphabet) :
    (symbolBits a, groupBits (symbolBits a), groupBytes (symbolBits a), groupSyms (symbolBits a)) =
      match a with
      | .base16 => (4, 8, 1, 2)
      | .base16upper => (4, 8, 1, 2)
      | .base32 => (5, 40, 5, 8)
      | .base32hex => (5, 40, 5, 8)
      | .base64 => (6, 24, 3, 4)
      | .base64url => (6, 24, 3, 4)
      | .octal => (3, 24, 3, 8) := by
  cases a <;> decide

end Sys2Proof.Machine
end

