-- ==== Sys2Proof/Laws/PerInstr.lean ====
section
/-! SUPPORT. Facts about every command as syntax, one lemma per constructor: its fields pass the checks
of `30_encoding.md` R76, and its word has those fields (R71). -/

namespace Sys2Proof.Laws.FieldsOfWord

/-- The command's fields are legal, and they are the fields of its word. -/
def Statement (i : Instr) : Prop :=
  i.fields.illegal = none ∧ Fields.ofWord (encodeWord i) = i.fields

theorem nop : Statement .nop := ⟨by decide, by decide⟩
theorem pack (a : Alphabet) : Statement (.pack a) := by cases a <;> exact ⟨by decide, by decide⟩
theorem unpack (a : Alphabet) : Statement (.unpack a) := by cases a <;> exact ⟨by decide, by decide⟩
theorem v2c (a : Alphabet) : Statement (.v2c a) := by cases a <;> exact ⟨by decide, by decide⟩
theorem c2v (f : Bool) (a : Alphabet) : Statement (.c2v f a) := by
  cases f <;> cases a <;> exact ⟨by decide, by decide⟩
theorem pada (f : Bool) (a : Alphabet) : Statement (.pada f a) := by
  cases f <;> cases a <;> exact ⟨by decide, by decide⟩
theorem pads (a : Alphabet) : Statement (.pads a) := by cases a <;> exact ⟨by decide, by decide⟩
theorem encode (f : Bool) (a : Alphabet) : Statement (.encode f a) := by
  cases f <;> cases a <;> exact ⟨by decide, by decide⟩
theorem decode (a : Alphabet) : Statement (.decode a) := by cases a <;> exact ⟨by decide, by decide⟩
theorem geom (a : Alphabet) : Statement (.geom a) := by cases a <;> exact ⟨by decide, by decide⟩
theorem xfer : Statement .xfer := ⟨by decide, by decide⟩

end Sys2Proof.Laws.FieldsOfWord
end

