-- ==== Sys2Proof/Laws/Step.lean ====
section
/-! SUPPORT. What a step is, by the host's next event. -/

namespace Sys2Proof.Machine

theorem step_of_pending_nil {s : State} (h : s.pending = []) : step s = .next s := by
  simp [step, h]

theorem step_of_pending_cons {s : State} {e : HostEvent} {rest : List HostEvent}
    (h : s.pending = e :: rest) : step s = hostEvent e (s.withPending rest) := by
  simp [step, h]

theorem hostWriteCmd_legal {w : Byte} {i : Instr} (h : decodeWord w = .ok i) (s : State) :
    hostWriteCmd w s = exec i s := by
  simp [hostWriteCmd, h]

theorem hostWriteCmd_illegal {w : Byte} {r : IllegalWord} (h : decodeWord w = .error r)
    (s : State) : hostWriteCmd w s = .next (fail .illegalCommand (s.storeCmd w)) := by
  simp [hostWriteCmd, h, execIllegal]

/-- A step that answers a next state either idles or performs the first event. -/
theorem step_cases {s t : State} (h : step s = .next t) :
    (s.pending = [] ∧ t = s) ∨
    ∃ e rest, s.pending = e :: rest ∧ hostEvent e (s.withPending rest) = .next t := by
  cases hp : s.pending with
  | nil => rw [step_of_pending_nil hp] at h; cases h; exact .inl ⟨rfl, rfl⟩
  | cons e rest => rw [step_of_pending_cons hp] at h; exact .inr ⟨e, rest, rfl, h⟩

end Sys2Proof.Machine
end

