-- ==== Sys2Proof/Tests/Slice0.lean ====
section
/-! SUPPORT. The model's own tests: the checks of `30_encoding.md` R76 on ill-formed fields, words
written out from the encoding tables of R71 to R73, at most two one-step tests per command (expected
results from `95_test_vectors.md`, by vector name), and for every obligation with hypotheses a
concrete instance that meets them, at the boundaries of its clauses. -/

namespace Sys2Proof.Tests

open Sys2Proof.Machine Sys2Proof.Claims

/-! ## Helpers -/

/-- A machine with MCAP = 8 + excess whose IN is xs. -/
def holding (excess : Fin 65528) (xs : List Byte) : State :=
  { State.reset with
    cfg := ⟨excess⟩, ilen := BitVec.ofNat 16 xs.length, ibuf := Memory.ofSeq xs }

/-- A machine with MCAP = 16 whose OUT is xs. -/
def showing (xs : List Byte) : State := (holding 8 []).setOut xs

/-- A machine with MCAP = 8 and ILEN = 9, no cell written. -/
def tooLong : State := { holding 0 [] with ilen := 9 }

/-- A machine with MCAP = 8 and ILEN = k, no cell written. -/
def unwritten (k : Half) : State := { holding 0 [] with ilen := k }

/-- A machine with MCAP = 16 and these events to come. -/
def expecting (es : List HostEvent) : State := (holding 8 [0x41]).withPending es

/-- STATUS.ERR and OUT after a command; `none` when it stops. -/
def outcome (r : Result) : Option (BitVec 3 × Option (List Byte)) :=
  match r with
  | .next t => some (t.err, t.readOut)
  | .fault _ => none
  | .refused _ => none

/-! ## Ill-formed fields are refused, one for each check of R76 -/

theorem test_reservedOp_refused :
    decodeFields { op := 0xB, f := false, a := 0 } = .error .reservedOp := by decide
theorem test_reservedAlphabet_refused :
    decodeFields { op := 0x9, f := false, a := 7 } = .error .reservedAlphabet := by decide
theorem test_strayAlphabet_refused :
    decodeFields { op := 0xA, f := false, a := 1 } = .error .strayAlphabet := by decide
theorem test_strayFlag_refused :
    decodeFields { op := 0x8, f := true, a := 0 } = .error .strayFlag := by decide
theorem test_illFormed_fields :
    Fields.wellFormed { op := 0xF, f := false, a := 0 } = false ∧
    Fields.wellFormed { op := 0x1, f := false, a := 7 } = false ∧
    Fields.wellFormed { op := 0x0, f := false, a := 1 } = false ∧
    Fields.wellFormed { op := 0x0, f := true, a := 0 } = false := by decide

/-! ## Words written out bit by bit: OP in bits 7 to 4, F in bit 3, A in bits 2 to 0 -/

theorem test_decode_nop : decodeWord 0b0000_0_000 = .ok .nop := by decide
theorem test_decode_pack : decodeWord 0b0001_0_110 = .ok (.pack .octal) := by decide
theorem test_decode_unpack : decodeWord 0b0010_0_100 = .ok (.unpack .base64) := by decide
theorem test_decode_v2c : decodeWord 0b0011_0_001 = .ok (.v2c .base16upper) := by decide
theorem test_decode_c2v : decodeWord 0b0100_1_101 = .ok (.c2v true .base64url) := by decide
theorem test_decode_pada : decodeWord 0b0101_1_010 = .ok (.pada true .base32) := by decide
theorem test_decode_pads : decodeWord 0b0110_0_011 = .ok (.pads .base32hex) := by decide
theorem test_decode_encode : decodeWord 0b0111_0_000 = .ok (.encode false .base16) := by decide
theorem test_decode_decode : decodeWord 0b1000_0_100 = .ok (.decode .base64) := by decide
theorem test_decode_geom : decodeWord 0b1001_0_010 = .ok (.geom .base32) := by decide
theorem test_decode_xfer : decodeWord 0b1010_0_000 = .ok .xfer := by decide

/-! ## One step per command -/

/-- V-SYS-1: NOP after a failure with ILEN = 4. -/
theorem test_nop :
    exec .nop { holding 8 [0x5A, 0x6D, 0x39, 0x3D] with err := 4 } =
      .next { holding 8 [0x5A, 0x6D, 0x39, 0x3D] with err := 0 } := by rfl

/-- V-PACK-13. -/
theorem test_pack_base32 :
    outcome (hostWriteCmd 0x12 (holding 8 [0xDE, 0xAD, 0xBE, 0xEF, 0x42])) =
      some (0, some [27, 26, 22, 27, 29, 27, 26, 2]) := by decide

/-- V-PACK-1. -/
theorem test_pack_octal_short :
    outcome (hostWriteCmd 0x16 (holding 8 [0xFF])) = some (0, some [7, 7, 6]) := by decide

/-- V-UNP-37: the trailing bits span three symbols. -/
theorem test_unpack_octal :
    outcome (hostWriteCmd 0x26 (holding 8 [7, 7, 6, 0, 0])) = some (0, some [0xFF]) := by decide

/-- V-UNP-43: the range is tested before the trailing bits. -/
theorem test_unpack_range_first :
    outcome (hostWriteCmd 0x24 (holding 8 [64, 1])) = some (3, some []) := by decide

/-- V-V2C-1. -/
theorem test_v2c_base64 :
    outcome (hostWriteCmd 0x34 (holding 8 [0, 25, 26, 51, 52, 61, 62, 63])) =
      some (0, some [0x41, 0x5A, 0x61, 0x7A, 0x30, 0x39, 0x2B, 0x2F]) := by decide

/-- V-V2C-10: 8 is the first value past the octal range. -/
theorem test_v2c_octal_range :
    outcome (hostWriteCmd 0x36 (holding 8 [7, 8])) = some (5, some []) := by decide

/-- V-C2V-4. -/
theorem test_c2v_pad_anywhere :
    outcome (hostWriteCmd 0x4C (holding 8 [0x3D, 0x5A, 0x3D, 0x6D])) =
      some (0, some [255, 25, 255, 38]) := by decide

/-- V-C2V-2: F = 0 does not allow the pad character. -/
theorem test_c2v_pad_refused :
    outcome (hostWriteCmd 0x44 (holding 8 [0x5A, 0x6D, 0x38, 0x3D])) = some (1, some []) := by
  decide

/-- V-PADA-8. -/
theorem test_pada_base32hex :
    outcome (hostWriteCmd 0x5B (holding 8 [0x43, 0x50, 0x4E, 0x4D, 0x55, 0x4F, 0x47])) =
      some (0, some [0x43, 0x50, 0x4E, 0x4D, 0x55, 0x4F, 0x47, 0x3D]) := by decide

/-- V-PADA-11: octal has no padding. -/
theorem test_pada_octal :
    outcome (hostWriteCmd 0x5E (holding 8 [0x37, 0x37, 0x36])) =
      some (0, some [0x37, 0x37, 0x36]) := by decide

/-- V-PADS-3. -/
theorem test_pads :
    outcome (hostWriteCmd 0x64 (holding 8 [0x5A, 0x67, 0x3D, 0x3D])) =
      some (0, some [0x5A, 0x67]) := by decide

/-- V-PADS-4: interrupted padding. -/
theorem test_pads_interrupted :
    outcome (hostWriteCmd 0x64 (holding 8 [0x5A, 0x6D, 0x3D, 0x38])) = some (4, some []) := by
  decide

/-- V-ENC-3: two groups and six pad characters. -/
theorem test_encode_base32 :
    outcome (hostWriteCmd 0x7A (holding 8 [0x66, 0x6F, 0x6F, 0x62, 0x61, 0x72])) =
      some (0, some [0x4D, 0x5A, 0x58, 0x57, 0x36, 0x59, 0x54, 0x42, 0x4F, 0x49,
        0x3D, 0x3D, 0x3D, 0x3D, 0x3D, 0x3D]) := by decide

/-- V-ENC-12. -/
theorem test_encode_base64url :
    outcome (hostWriteCmd 0x7D (holding 8 [0xFB, 0xFF, 0xBF])) =
      some (0, some [0x2D, 0x5F, 0x2D, 0x5F]) := by decide

/-- V-DEC-10. -/
theorem test_decode_base32 :
    outcome (hostWriteCmd 0x82 (holding 8 [0x4D, 0x5A, 0x58, 0x57, 0x36, 0x59, 0x54, 0x42, 0x4F,
        0x49, 0x3D, 0x3D, 0x3D, 0x3D, 0x3D, 0x3D])) =
      some (0, some [0x66, 0x6F, 0x6F, 0x62, 0x61, 0x72]) := by decide

/-- V-DEC-18: the padding error wins over the bad character. -/
theorem test_decode_padding_first :
    outcome (hostWriteCmd 0x84 (holding 8 [0x24, 0x3D, 0x6D])) = some (4, some []) := by decide

/-- V-GEO-3, with ILEN above MCAP. -/
theorem test_geom_base32 :
    outcome (hostWriteCmd 0x92 tooLong) = some (0, some [5, 5, 8, 8]) := by decide

/-- V-SYS-3. -/
theorem test_xfer :
    hostWriteCmd 0xA0 (showing [25, 38, 60]) =
      .next { showing [25, 38, 60] with cmd := 0xA0, ilen := 3, ibuf := Memory.ofSeq [25, 38, 60] } := by
  rfl

/-- V-GEO-8: an illegal word. -/
theorem test_illegal_word : outcome (hostWriteCmd 0x97 tooLong) = some (6, some []) := by decide

/-- The first step after reset runs the word placed by `withFetchWord`. -/
theorem test_first_step_after_reset :
    outcome (step (State.reset.withFetchWord 8 0x94)) = some (0, some [6, 3, 4, 4]) := by decide

/-! ## Witnesses: every hypothesis of the obligations can be met -/

theorem witness_DecodeAndEncodeAgree :
    decodeWord 0x7E = .ok (.encode true .octal) ∧ decodeWord 0x00 = .ok .nop := by decide

theorem illegal_of {w : Byte} {r : IllegalWord} (h : decodeWord w = .error r) : Illegal w := ⟨r, h⟩

/-- Each clause of R76 at the ends of its range. -/
theorem witness_IllegalWordsFailWithCode6 :
    Illegal 0xB0 ∧ Illegal 0xFF ∧ Illegal 0x17 ∧ Illegal 0x97 ∧ Illegal 0x01 ∧ Illegal 0xA7 ∧
      Illegal 0x08 ∧ Illegal 0x18 ∧ Illegal 0x3E ∧ Illegal 0x68 ∧ Illegal 0x8E ∧
      Illegal 0xA8 :=
  ⟨illegal_of rfl, illegal_of rfl, illegal_of rfl, illegal_of rfl, illegal_of rfl, illegal_of rfl,
    illegal_of rfl, illegal_of rfl, illegal_of rfl, illegal_of rfl, illegal_of rfl, illegal_of rfl⟩

theorem witness_StepPerformsTheNextEvent :
    (expecting [.reset, .readIbuf 0]).pending = .reset :: [.readIbuf 0] ∧
      (expecting []).pending = [] := by decide

theorem witness_StepRunsTheDecodedCommand :
    (expecting [.writeCmd 0x16]).pending = .writeCmd 0x16 :: [] ∧
      decodeWord 0x16 = .ok (.pack .octal) ∧
      decodeTableWord 8 0x00 = some .nop ∧ decodeTableWord 8 0xA0 = some .xfer := by decide

theorem witness_HostRegisterWrites :
    (∃ t, hostEvent (.writeCmd 0xFF) (expecting []) = .next t) ∧
      (∃ t, hostEvent (.writeCmd 0x34) (expecting []) = .next t) ∧
      decodeWord 0x34 = .ok (.v2c .base64) ∧ Illegal 0xFF :=
  ⟨⟨_, rfl⟩, ⟨_, rfl⟩, by decide, illegal_of rfl⟩

theorem witness_HostWritesInputCell :
    0 < (expecting []).mcap ∧ 15 < (expecting []).mcap := by decide

/-- The first cell and the first register that do not exist. -/
theorem witness_AccessesToWhatDoesNotExist :
    (expecting []).mcap ≤ 16 ∧ (4 : Nat) ≤ 4 ∧ Reg.ofNumber 4 = .absent 0 := by decide

theorem witness_HostReadsCells :
    (0 < (expecting []).mcap ∧ (expecting []).ibuf.read 0 = some 0x41) ∧
      (15 < (expecting []).mcap ∧ (expecting []).ibuf.read 15 = none) ∧
      ((showing [1, 2]).wf ∧ 1 < (showing [1, 2]).olen.toNat ∧
        (showing [1, 2]).obuf.read 1 = some 2) ∧
      (2 < (showing [1, 2]).mcap ∧ (showing [1, 2]).olen.toNat ≤ 2) ∧
      (showing [1, 2]).mcap ≤ 16 := by decide

theorem witness_ReadReturnsTheLastWrite :
    ((expecting [.writeIbuf 15 7, .readIbuf 15]).pending = .writeIbuf 15 7 :: .readIbuf 15 :: [] ∧
      15 < (expecting [.writeIbuf 15 7, .readIbuf 15]).mcap) ∧
    ((expecting [.writeIbuf 15 7, .readIbuf 0]).pending = .writeIbuf 15 7 :: .readIbuf 0 :: [] ∧
      0 < (expecting [.writeIbuf 15 7, .readIbuf 0]).mcap ∧
      (expecting [.writeIbuf 15 7, .readIbuf 0]).ibuf.read 0 = some 0x41) := by decide

/-- A command that fails, one that succeeds, an illegal word, and an event that is no command. -/
theorem witness_StatusHoldsTheLastCode :
    (∃ t, hostWriteCmd 0x30 (holding 8 [16]) = .next t ∧ t.err = 5) ∧
    (∃ t, hostWriteCmd 0x30 (holding 8 [15]) = .next t ∧ t.err = 0) ∧
    (∃ t, hostWriteCmd 0xFF (holding 8 [15]) = .next t ∧ t.err = 6) ∧
    (∀ w, HostEvent.writeIlen 5 ≠ .writeCmd w) ∧ HostEvent.writeIlen 5 ≠ .reset ∧
      ∃ t, hostEvent (.writeIlen 5) (expecting []) = .next t :=
  ⟨⟨_, rfl, by decide⟩, ⟨_, rfl, by decide⟩, ⟨_, rfl, by decide⟩, fun _ h => (by cases h),
    by decide, ⟨_, rfl⟩⟩

theorem witness_EveryStepKeepsTheStateGood :
    ((showing [1, 2]).withFetchWord 8 0xA0).wf ∧
      ∃ t, step ((showing [1, 2]).withFetchWord 8 0xA0) = .next t := ⟨by decide, ⟨_, rfl⟩⟩

theorem witness_ConfigurationNeverChanges :
    (∃ t, step (expecting []) = .next t) ∧ ∃ t, step (expecting [.reset]) = .next t :=
  ⟨⟨_, rfl⟩, ⟨_, rfl⟩⟩

theorem witness_DutyMeansTheStepGoesOn :
    ((expecting [.writeCmd 0x70]).wf ∧
      (expecting [.writeCmd 0x70]).pending = .writeCmd 0x70 :: [] ∧
      dutyMet (.writeCmd 0x70) (expecting [.writeCmd 0x70]) = true) ∧
    ((expecting [.readIbuf 0]).wf ∧ (expecting [.readIbuf 0]).pending = .readIbuf 0 :: [] ∧
      dutyMet (.readIbuf 0) (expecting [.readIbuf 0]) = true) ∧
    (((showing [1, 2]).withPending [.readObuf 1]).wf ∧
      ((showing [1, 2]).withPending [.readObuf 1]).pending = .readObuf 1 :: [] ∧
      dutyMet (.readObuf 1) ((showing [1, 2]).withPending [.readObuf 1]) = true) := by decide

theorem witness_NopOnlyClearsTheCode :
    (1 ≤ (0x01 : Byte).toNat ∧ (0x01 : Byte).toNat ≤ 15) ∧
      (1 ≤ (0x0F : Byte).toNat ∧ (0x0F : Byte).toNat ≤ 15) ∧
      (∀ w, HostEvent.writeIlen 5 ≠ .writeCmd w) ∧ HostEvent.writeIlen 5 ≠ .reset ∧
      ∃ t, hostEvent (.writeIlen 5) (expecting []) = .next t :=
  ⟨by decide, by decide, fun _ h => (by cases h), by decide, ⟨_, rfl⟩⟩

theorem witness_XferCopiesTheResult :
    (showing [1, 2]).wf ∧ 1 < (showing [1, 2]).olen.toNat ∧ (showing [1, 2]).olen.toNat ≤ 2 ∧
      (0xA1 ≤ (0xA1 : Byte).toNat ∧ (0xA1 : Byte).toNat ≤ 0xAF) ∧
      (0xA1 ≤ (0xAF : Byte).toNat ∧ (0xAF : Byte).toNat ≤ 0xAF) := by decide

theorem witness_GeomReportsTheGeometry :
    (0x97 ≤ (0x97 : Byte).toNat ∧ (0x97 : Byte).toNat ≤ 0x9F) ∧
      (0x97 ≤ (0x9F : Byte).toNat ∧ (0x9F : Byte).toNat ≤ 0x9F) := by decide

/-- One cell too many for the buffer, one byte too many for the group, a full group, an empty one. -/
theorem witness_PackRegroupsOneByteGroup :
    (0x17 ≤ (0x17 : Byte).toNat ∧ (0x1F : Byte).toNat ≤ 0x1F) ∧
      tooLong.mcap < tooLong.ilen.toNat ∧
      ((unwritten 4).ilen.toNat ≤ (unwritten 4).mcap ∧
        groupBytes (symbolBits .base64) < (unwritten 4).ilen.toNat) ∧
      (InputIs (holding 8 [1, 2, 3]) [1, 2, 3] ∧ 3 ≤ groupBytes (symbolBits .base64)) ∧
      InputIs (holding 8 []) [] := by decide

/-- As for PACK, then a symbol at 2^n, a one bit and no one bit after the last whole byte. -/
theorem witness_UnpackChecksAndRegroups :
    (0x27 ≤ (0x27 : Byte).toNat ∧ (0x2F : Byte).toNat ≤ 0x2F) ∧
      tooLong.mcap < tooLong.ilen.toNat ∧
      ((unwritten 5).ilen.toNat ≤ (unwritten 5).mcap ∧
        groupSyms (symbolBits .base64) < (unwritten 5).ilen.toNat) ∧
      (InputIs (holding 8 [63, 64]) [63, 64] ∧ ∃ x ∈ ([63, 64] : List Byte),
        2 ^ symbolBits .base64 ≤ x.toNat) ∧
      (InputIs (holding 8 [25, 38, 61]) [25, 38, 61] ∧
        (∀ x ∈ ([25, 38, 61] : List Byte), x.toNat < 2 ^ symbolBits .base64) ∧
        true ∈ (bitString (symbolBits .base64) [25, 38, 61]).drop
          (8 * (3 * symbolBits .base64 / 8))) ∧
      (InputIs (holding 8 [25, 38, 60]) [25, 38, 60] ∧
        (∀ x ∈ ([25, 38, 60] : List Byte), x.toNat < 2 ^ symbolBits .base64) ∧
        true ∉ (bitString (symbolBits .base64) [25, 38, 60]).drop
          (8 * (3 * symbolBits .base64 / 8))) := by decide

theorem witness_V2cLooksUpEveryValue :
    (0x37 ≤ (0x37 : Byte).toNat ∧ (0x3F : Byte).toNat ≤ 0x3F) ∧
      tooLong.mcap < tooLong.ilen.toNat ∧
      (InputIs (holding 8 [7, 8]) [7, 8] ∧
        ∃ x ∈ ([7, 8] : List Byte), 2 ^ symbolBits .octal ≤ x.toNat) ∧
      (InputIs (holding 8 [7, 0]) [7, 0] ∧
        ∀ x ∈ ([7, 0] : List Byte), x.toNat < 2 ^ symbolBits .octal) := by decide

theorem witness_C2vLooksUpEveryCharacter :
    tooLong.mcap < tooLong.ilen.toNat ∧
      (InputIs (holding 8 [0x5A, 0x3D]) [0x5A, 0x3D] ∧
        (∃ x ∈ ([0x5A, 0x3D] : List Byte), x ∉ table .base64 ∧ ¬(false = true ∧ x = 0x3D)) ∧
        ∀ x ∈ ([0x5A, 0x3D] : List Byte), x ∈ table .base64 ∨ (true = true ∧ x = 0x3D)) := by
  decide

/-- The padded length one above MCAP, and at MCAP. -/
theorem witness_PadaAppendsPadCharacters :
    tooLong.mcap < tooLong.ilen.toNat ∧
      (PadRun .base64 true 9 3 ∧ (holding 1 (List.replicate 9 0x41)).ilen.toNat = 9 ∧
        9 ≤ (holding 1 (List.replicate 9 0x41)).mcap ∧
        (holding 1 (List.replicate 9 0x41)).mcap < 9 + 3) ∧
      (PadRun .base64 true 5 3 ∧ InputIs (holding 0 [1, 2, 3, 4, 5]) [1, 2, 3, 4, 5] ∧
        (holding 0 [1, 2, 3, 4, 5]).ilen.toNat + 3 ≤ (holding 0 [1, 2, 3, 4, 5]).mcap) ∧
      PadRun .base64 true 8 0 ∧ PadRun .base64 false 5 0 ∧ PadRun .octal true 5 0 := by decide

theorem interrupted_text : Interrupted [0x5A, 0x6D, 0x3D, 0x38] :=
  ⟨[0x5A, 0x6D], [0x38], by decide, by decide, 0x38, by decide, by decide⟩

theorem witness_PadsStripsPadCharacters :
    (0x67 ≤ (0x67 : Byte).toNat ∧ (0x6F : Byte).toNat ≤ 0x6F) ∧
      tooLong.mcap < tooLong.ilen.toNat ∧
      (InputIs (holding 8 [0x5A, 0x6D, 0x3D, 0x38]) [0x5A, 0x6D, 0x3D, 0x38] ∧
        Interrupted [0x5A, 0x6D, 0x3D, 0x38]) ∧
      (InputIs (holding 8 [0x5A, 0x67, 0x3D, 0x3D]) ([0x5A, 0x67] ++ List.replicate 2 0x3D) ∧
        0x3D ∉ ([0x5A, 0x67] : List Byte)) ∧
      (InputIs (holding 8 [0x3D]) ([] ++ List.replicate 1 0x3D) ∧ 0x3D ∉ ([] : List Byte)) :=
  ⟨by decide, by decide, ⟨by decide, interrupted_text⟩, by decide, by decide⟩

/-- The text one group above MCAP, and at MCAP. -/
theorem witness_EncodeSpellsTheWholeMessage :
    tooLong.mcap < tooLong.ilen.toNat ∧
      (10 = (8 * (unwritten 7).ilen.toNat + symbolBits .base64 - 1) / symbolBits .base64 ∧
        PadRun .base64 true 10 2 ∧ (unwritten 7).ilen.toNat ≤ (unwritten 7).mcap ∧
        (unwritten 7).mcap < 10 + 2) ∧
      (6 = (8 * (holding 0 [1, 2, 3, 4]).ilen.toNat + symbolBits .base64 - 1) /
          symbolBits .base64 ∧
        PadRun .base64 true 6 2 ∧ InputIs (holding 0 [1, 2, 3, 4]) [1, 2, 3, 4] ∧
        6 + 2 ≤ (holding 0 [1, 2, 3, 4]).mcap) := by decide

/-- The texts "Z$=", "Zm9=" and "Zm8=" (V-DEC-19, V-DEC-5 and V-DEC-3 shortened to one group). -/
theorem witness_DecodeAcceptsExactlyTheCanonicalBits :
    (0x87 ≤ (0x87 : Byte).toNat ∧ (0x8F : Byte).toNat ≤ 0x8F) ∧
      tooLong.mcap < tooLong.ilen.toNat ∧
      (InputIs (holding 8 [0x5A, 0x6D, 0x3D, 0x38]) [0x5A, 0x6D, 0x3D, 0x38] ∧
        Interrupted [0x5A, 0x6D, 0x3D, 0x38]) ∧
      (InputIs (holding 8 [0x5A, 0x24, 0x3D]) ([0x5A, 0x24] ++ List.replicate 1 0x3D) ∧
        0x3D ∉ ([0x5A, 0x24] : List Byte) ∧
        ∃ c ∈ ([0x5A, 0x24] : List Byte), c ∉ table .base64) ∧
      (InputIs (holding 8 [0x5A, 0x6D, 0x39, 0x3D]) ([0x5A, 0x6D, 0x39] ++ List.replicate 1 0x3D) ∧
        0x3D ∉ ([0x5A, 0x6D, 0x39] : List Byte) ∧
        ((table .base64)[25]? = some 0x5A ∧ (table .base64)[38]? = some 0x6D ∧
          (table .base64)[61]? = some 0x39) ∧
        true ∈ (bitString (symbolBits .base64) [25, 38, 61]).drop
          (8 * (3 * symbolBits .base64 / 8))) ∧
      (InputIs (holding 8 [0x5A, 0x6D, 0x38, 0x3D]) ([0x5A, 0x6D, 0x38] ++ List.replicate 1 0x3D) ∧
        0x3D ∉ ([0x5A, 0x6D, 0x38] : List Byte) ∧
        ((table .base64)[25]? = some 0x5A ∧ (table .base64)[38]? = some 0x6D ∧
          (table .base64)[60]? = some 0x38) ∧
        true ∉ (bitString (symbolBits .base64) [25, 38, 60]).drop
          (8 * (3 * symbolBits .base64 / 8))) :=
  ⟨by decide, by decide, ⟨by decide, interrupted_text⟩, by decide, by decide, by decide⟩

/-- A legal and an illegal word that fail. -/
theorem witness_FailingCommandLeavesNoResult :
    (∃ t, hostWriteCmd 0x30 (holding 8 [16]) = .next t ∧ t.err ≠ 0) ∧
      ∃ t, hostWriteCmd 0x17 (holding 8 [16]) = .next t ∧ t.err ≠ 0 :=
  ⟨⟨_, rfl, by decide⟩, ⟨_, rfl, by decide⟩⟩

theorem witness_InputBeyondCapacityIsCode7 :
    (takesInput (.pads .base16) = true ∧ tooLong.mcap < tooLong.ilen.toNat) ∧
      (takesInput (.geom .base16) = false ∧ ∃ t, exec (.geom .base16) tooLong = .next t) ∧
      (takesInput .xfer = false ∧ ∃ t, exec .xfer tooLong = .next t) ∧
      (holding 65527 []).mcap = 65535 :=
  ⟨by decide, ⟨by decide, ⟨_, rfl⟩⟩, ⟨by decide, ⟨_, rfl⟩⟩, by decide⟩

/-- PADA on nine characters and ENCODE on seven bytes end with code 7; ENCODE at the bound of R205. -/
theorem witness_OnlyPadaAndEncodeOverflowTheResult :
    ((holding 1 (List.replicate 9 0x41)).ilen.toNat ≤ (holding 1 (List.replicate 9 0x41)).mcap ∧
      ∃ t, exec (.pada true .base64) (holding 1 (List.replicate 9 0x41)) = .next t ∧ t.err = 7) ∧
      ((unwritten 7).ilen.toNat ≤ (unwritten 7).mcap ∧
        ∃ t, exec (.encode false .base64) (unwritten 7) = .next t ∧ t.err = 7) ∧
      ((showing [1, 2]).wf ∧ ∃ t, exec .xfer (showing [1, 2]) = .next t) ∧
      (InputIs (holding 0 [1, 2, 3, 4, 5]) [1, 2, 3, 4, 5] ∧
        ([1, 2, 3, 4, 5] : List Byte).length ≤ 5 * ((holding 0 [1, 2, 3, 4, 5]).mcap / 8)) ∧
      (InputIs (holding 0 [1, 2, 3]) [1, 2, 3] ∧
        ([1, 2, 3] : List Byte).length ≤ 3 * (holding 0 [1, 2, 3]).mcap / 8) :=
  ⟨⟨by decide, _, rfl, by decide⟩, ⟨by decide, _, rfl, by decide⟩, ⟨by decide, _, rfl⟩,
    by decide, by decide⟩

theorem witness_EachCommandKeepsToItsCodes :
    (∃ t, exec (.decode .base16) (holding 8 [0x46, 0x46]) = .next t ∧ t.err = 1) ∧
      ∃ t, exec (.unpack .base64) (holding 8 [25]) = .next t ∧ t.err = 4 :=
  ⟨⟨_, rfl, by decide⟩, ⟨_, rfl, by decide⟩⟩

theorem witness_CommandsTouchOnlyTheirOwnState :
    (∃ t, exec (.pack .base16) (holding 8 [0xA5]) = .next t) ∧
      (∃ t, exec .nop (showing [1, 2]) = .next t) ∧
      (∃ t, exec .xfer (showing [1, 2]) = .next t) ∧ (showing [1, 2]).olen.toNat ≤ 2 :=
  ⟨⟨_, rfl⟩, ⟨_, rfl⟩, ⟨_, rfl⟩, by decide⟩

/-- Two states that differ in CMD, ERR, the result and the cells above ILEN. -/
theorem witness_ResultDependsOnTheInputAlone :
    let s := holding 8 [0xA5]
    let s' := { (s.setOut [1]).writeIbufCell 3 9 with err := 5, cmd := 0x22 }
    (s.cfg = s'.cfg ∧ s.ilen = s'.ilen ∧ (∀ j < s.ilen.toNat, s.ibuf.read j = s'.ibuf.read j) ∧
      ∃ t, exec (.pack .base16) s = .next t) ∧
    ((showing [1, 2]).cfg = { showing [1, 2] with ilen := 7 }.cfg ∧
      (∀ j < (showing [1, 2]).olen.toNat,
        (showing [1, 2]).obuf.read j = { showing [1, 2] with ilen := 7 }.obuf.read j) ∧
      (∃ t, exec .xfer (showing [1, 2]) = .next t) ∧
      (showing [1, 2]).olen.toNat ≤ (showing [1, 2]).mcap) ∧ Illegal 0xB0 :=
  ⟨⟨by decide, by decide, by decide, ⟨_, rfl⟩⟩, ⟨by decide, by decide, ⟨_, rfl⟩, by decide⟩,
    illegal_of rfl⟩

/-- The longest group and text that are still read, for the four commands whose length can decide an
error first. -/
theorem witness_UnwrittenInputIsRefused :
    ((unwritten 3).ilen.toNat ≤ (unwritten 3).mcap ∧ 2 < (unwritten 3).ilen.toNat ∧
      (unwritten 3).ibuf.read 2 = none ∧
      (unwritten 3).ilen.toNat ≤ groupBytes (symbolBits .base64)) ∧
    (unwritten 4).ilen.toNat ≤ groupSyms (symbolBits .base64) ∧
    (∀ r, PadRun .base64 true (unwritten 8).ilen.toNat r →
      (unwritten 8).ilen.toNat + r ≤ (unwritten 8).mcap) ∧
    (∀ r, PadRun .base64 false 8 r → 8 + r ≤ (unwritten 6).mcap) ∧
    (8 * (unwritten 6).ilen.toNat + symbolBits .base64 - 1) / symbolBits .base64 = 8 := by
  refine ⟨by decide, by decide, fun r h => ?_, fun r h => ?_, by decide⟩
  · have h4 : r < 4 ∧ 4 ∣ 8 + r := h
    show 8 + r ≤ 8
    omega
  · have h0 : r = 0 := h
    show 8 + r ≤ 8
    omega

theorem witness_XferHidesAFailure :
    (∃ t, hostWriteCmd 0x30 (holding 8 [16]) = .next t ∧ t.err ≠ 0) ∧
      takesInput (.decode .octal) = true := ⟨⟨_, rfl, by decide⟩, by decide⟩

theorem witness_GcdFollowsEuclid : (1 : Nat) ≤ 8 ∧ (0 : Nat) < 6 := by decide

theorem witness_GroupGeometryAndLengthLaws :
    Width 3 ∧ Width 6 ∧ (0 < 24 ∧ 8 ∣ 24 ∧ 3 ∣ 24) := by decide

theorem witness_LookupsAreInverse :
    (63 : Byte).toNat < 2 ^ symbolBits .base64 ∧ (0x2F : Byte) ∈ table .base64 := by decide

/-- A lower-case digit against base16upper, and the text of the spec's scenario 6. -/
theorem witness_AlphabetIsolation :
    (InputIs (holding 8 [0x66]) ([0x66] ++ List.replicate 0 0x3D) ∧ 0x3D ∉ ([0x66] : List Byte) ∧
      (0x66 : Byte) ∈ ([0x66] : List Byte) ∧ (0x66 : Byte) ∈ table .base16 ∧
      (0x66 : Byte) ∉ table .base16upper) ∧
      InputIs (holding 8 [0x46, 0x46]) [0x46, 0x46] := by decide

/-- A full group each way, and the empty group. -/
theorem witness_UnpackUndoesPack :
    (Width 6 ∧ ([1, 2, 3] : List Byte).length ≤ groupBytes 6) ∧
      (Width 6 ∧ 2 ≤ groupBytes 6 ∧ ([25, 38, 60] : List Byte).length = symCount 6 2 ∧
        unpack 6 [25, 38, 60] = .ok [0x66, 0x6F]) ∧
      (Width 3 ∧ ([] : List Byte).length = symCount 3 0 ∧ unpack 3 [] = .ok []) := by decide

theorem witness_PackCursorEqualsPack :
    Width 5 ∧ [0xDE, 0xAD, 0xBE, 0xEF, 0xFF].length = groupBytes 5 ∧
      ∀ b ∈ [0xDE, 0xAD, 0xBE, 0xEF, 0xFF], b < 256 := by decide

theorem witness_UnpackCursorEqualsUnpack :
    Width 6 ∧ [25, 38, 0, 63].length = groupSyms 6 ∧ ∀ v ∈ [25, 38, 0, 63], v < 2 ^ 6 := by decide

theorem witness_StripUndoesAppend :
    (0x3D : Byte) ∉ ([0x5A, 0x67] : List Byte) ∧ (0x3D : Byte) ∉ ([] : List Byte) := by decide

/-- The smallest group size, and a sequence with a whole and a short last chunk. -/
theorem witness_ChunksCutTheSequence :
    (1 : Nat) ≤ 1 ∧ chunks 3 [1, 2, 3, 4] = [[1, 2, 3], [4]] ∧
      [4] ∈ (chunks 3 [1, 2, 3, 4]).getLast? ∧ [1, 2, 3] ∈ (chunks 3 [1, 2, 3, 4]).dropLast := by
  decide

/-- A text of MCAP characters. -/
theorem witness_DecodeUndoesEncode :
    InputIs (holding 0 [1, 2, 3, 4, 5, 6]) [1, 2, 3, 4, 5, 6] ∧
      4 * (((8 * 6 + symbolBits .base64 - 1) / symbolBits .base64 + 4 - 1) / 4) ≤
        (holding 0 [1, 2, 3, 4, 5, 6]).mcap := by decide

theorem witness_EncodeEqualsTheChain :
    InputIs (holding 0 [1, 2, 3, 4, 5]) [1, 2, 3, 4, 5] ∧
      ([1, 2, 3, 4, 5] : List Byte).length ≤ groupBytes (symbolBits .base32) := by decide

/-- "Zm8=" and an interrupted text. -/
theorem witness_DecodeEqualsTheChain :
    (InputIs (holding 0 [0x5A, 0x6D, 0x38, 0x3D]) [0x5A, 0x6D, 0x38, 0x3D] ∧
      (([0x5A, 0x6D, 0x38, 0x3D] : List Byte).takeWhile (· != 0x3D)).length ≤
        groupSyms (symbolBits .base64)) ∧
      (InputIs (holding 0 [0x3D, 0x41]) [0x3D, 0x41] ∧
        (([0x3D, 0x41] : List Byte).takeWhile (· != 0x3D)).length ≤
          groupSyms (symbolBits .base64)) := by decide

end Sys2Proof.Tests
end

section
/-! SUPPORT. What a command does to the state, for every command and every word: how it ends, that its
word stands in CMD, that it never reads ERR, and on what its result depends. -/

namespace Sys2Proof.Machine

open Sys2Proof.Claims

/-! ## How a command ends -/

/-- A legal word is the word of the command it decodes to (`30_encoding.md` R71, R73). -/
theorem encodeWord_of_decodeWord {w : Byte} {i : Instr} (h : decodeWord w = .ok i) :
    encodeWord i = w := by
  have hall : ∀ w : Byte, ((decodeWord w).toOption.map encodeWord).getD w = w := by decide
  simpa [h, Except.toOption] using hall w

/-- XFER where OUT is xs. -/
theorem exec_xfer_of_readOut {s : State} {xs : List Byte} (h : s.readOut = some xs) :
    exec .xfer s =
      .next (succeed (((s.storeCmd (encodeWord .xfer)).writeIbufFrom 0 xs).setIlen s.olen)) := by
  simp [exec_xfer, execXfer, h]

/-- XFER goes on only where OUT is specified. -/
theorem exec_xfer_eq_next {s t : State} (h : exec .xfer s = .next t) :
    ∃ xs, s.readOut = some xs ∧
      t = succeed (((s.storeCmd (encodeWord .xfer)).writeIbufFrom 0 xs).setIlen s.olen) := by
  obtain ⟨-, hx⟩ | ⟨xs, ho, hx⟩ := execXfer_cases s <;> rw [exec_xfer, hx] at h <;> cases h
  exact ⟨xs, ho, rfl⟩

/-- The two ends of a command (`30_encoding.md` R78): a failure with some kind, or a success with the
command's word in CMD. -/
theorem exec_cases {i : Instr} {s t : State} (h : exec i s = .next t) :
    (∃ k, t = fail k (s.storeCmd (encodeWord i))) ∨ ∃ u, t = succeed u ∧ u.cmd = encodeWord i := by
  cases hi : takesInput i with
  | true =>
    rw [exec_takesInput hi] at h
    obtain ⟨-, rfl⟩ | ⟨-, k, -, rfl⟩ | ⟨-, -, xs, -, rfl⟩ := runOnInput_cases h
    · exact .inl ⟨_, rfl⟩
    · exact .inl ⟨k, rfl⟩
    · obtain ⟨k, hf, -⟩ | ⟨ys, -, -, hf⟩ :=
        finish_cases (functionOf i xs) (s.storeCmd (encodeWord i))
      · exact .inl ⟨k, hf⟩
      · exact .inr ⟨_, hf, rfl⟩
  | false =>
    obtain rfl | ⟨a, rfl⟩ | rfl := takesInput_eq_false hi
    · cases h; exact .inr ⟨_, rfl, rfl⟩
    · cases h; exact .inr ⟨_, rfl, rfl⟩
    · obtain ⟨xs, -, rfl⟩ := exec_xfer_eq_next h
      exact .inr ⟨_, rfl, by simp⟩

/-- The two ends of the host's write of CMD, whichever the word. -/
theorem hostWriteCmd_cases {w : Byte} {s t : State} (h : hostWriteCmd w s = .next t) :
    (∃ k, t = fail k (s.storeCmd w)) ∨ ∃ u, t = succeed u ∧ u.cmd = w := by
  cases hw : decodeWord w with
  | error r => rw [hostWriteCmd_illegal hw] at h; cases h; exact .inl ⟨_, rfl⟩
  | ok i =>
    rw [hostWriteCmd_legal hw] at h
    simpa [encodeWord_of_decodeWord hw] using exec_cases h

theorem hostWriteCmd_cmd {w : Byte} {s t : State} (h : hostWriteCmd w s = .next t) : t.cmd = w := by
  obtain ⟨k, rfl⟩ | ⟨u, rfl, hu⟩ := hostWriteCmd_cases h
  · rfl
  · exact hu

/-- An illegal word ends with code 6 and no result, in every state (`60_exceptions.md` R203). -/
theorem hostWriteCmd_illegal_ends {w : Byte} (h : Illegal w) (s : State) :
    ∃ t, hostWriteCmd w s = .next t ∧ Ends s w 6 [] t := by
  obtain ⟨r, hr⟩ := h
  exact ⟨_, hostWriteCmd_illegal hr s, by simp [Ends, ErrorKind.code]⟩

/-! ## Cells that do not exist -/

/-- A read of a cell at or above MCAP has no next state (`93_implementation_defined.md` U5). -/
theorem answerCell_ne_next {i : Nat} {v : Option Byte} {s t : State} (h : s.mcap ≤ i) :
    answerCell i v s ≠ .next t := by
  simp [answerCell, h]

/-- A write of a cell at or above MCAP is ignored (`10_state.md` R30). -/
theorem State.writeIbufCell_absent (s : State) {i : Nat} (v : Byte) (h : s.mcap ≤ i) :
    s.writeIbufCell i v = s :=
  if_neg (Nat.not_lt.mpr h)

/-! ## ERR -/

theorem ErrorKind.code_ne_zero (k : ErrorKind) : k.code ≠ 0 := by cases k <;> decide

/-- STATUS is ERR in the low three bits (`10_state.md` R23). -/
theorem State.status_toNat (s : State) : s.status.toNat = s.err.toNat :=
  BitVec.toNat_setWidth_of_le (by decide)

theorem hostWriteCmd_ends_with_its_code {w : Byte} {s t : State} (h : hostWriteCmd w s = .next t) :
    (∃ k, t = fail k (s.storeCmd w) ∧ t.err = k.code) ∨ ∃ u, t = succeed u ∧ t.err = 0 := by
  obtain ⟨k, rfl⟩ | ⟨u, rfl, -⟩ := hostWriteCmd_cases h
  · exact .inl ⟨k, rfl, rfl⟩
  · exact .inr ⟨u, rfl, rfl⟩

theorem answerCell_keeps_err {i : Nat} {v : Option Byte} {s t : State}
    (h : answerCell i v s = .next t) : t.err = s.err := by
  obtain ⟨-, ha⟩ | ⟨-, -, ha⟩ | ⟨b, -, -, ha⟩ := answerCell_cases i v s <;> rw [ha] at h <;> cases h
  rfl

/-- No host event but a command or reset changes ERR. -/
theorem hostEvent_keeps_err {e : HostEvent} {s t : State} (hc : ∀ w, e ≠ .writeCmd w)
    (hr : e ≠ .reset) (h : hostEvent e s = .next t) : t.err = s.err := by
  cases e with
  | writeCmd w => exact absurd rfl (hc w)
  | reset => exact absurd rfl hr
  | writeStatus v => cases h; rfl
  | writeIlen v => cases h; rfl
  | writeOlen v => cases h; rfl
  | writeAbsent k v => cases h; rfl
  | readReg r => cases h; rfl
  | writeIbuf i v => cases h; exact s.writeIbufCell_err i v
  | writeObuf i v => cases h; rfl
  | readIbuf i => exact answerCell_keeps_err h
  | readObuf i => exact answerCell_keeps_err h

/-! ## No command reads ERR -/

theorem State.writeIbufCell_setErr (s : State) (c : BitVec 3) (i : Nat) (v : Byte) :
    (s.setErr c).writeIbufCell i v = (s.writeIbufCell i v).setErr c := by
  unfold State.writeIbufCell
  rw [State.setErr_mcap]
  split <;> rfl

theorem State.writeIbufFrom_setErr (s : State) (c : BitVec 3) (i : Nat) (xs : List Byte) :
    (s.setErr c).writeIbufFrom i xs = (s.writeIbufFrom i xs).setErr c := by
  induction xs generalizing s i with
  | nil => rfl
  | cons x rest ih => rw [State.writeIbufFrom, State.writeIbufCell_setErr, ih]; rfl

/-- XFER reads OUT and never ERR. -/
theorem execXfer_setErr (s : State) (c : BitVec 3) : execXfer (s.setErr c) = execXfer s := by
  unfold execXfer
  rw [State.setErr_readOut]
  cases s.readOut with
  | none => rfl
  | some xs =>
    have hcopy : ((s.setErr c).storeCmd (encodeWord .xfer)).writeIbufFrom 0 xs =
        ((s.storeCmd (encodeWord .xfer)).writeIbufFrom 0 xs).setErr c :=
      State.writeIbufFrom_setErr (s.storeCmd (encodeWord .xfer)) c 0 xs
    simp only [hcopy]
    rfl

/-- Every end of the template overwrites ERR, and nothing before it reads ERR. -/
theorem runOnInput_setErr (w : Byte) (le : Nat → Option ErrorKind) (fn : List Byte → Seq)
    (s : State) (c : BitVec 3) : runOnInput w le fn (s.setErr c) = runOnInput w le fn s := rfl

theorem exec_setErr (i : Instr) (s : State) (c : BitVec 3) : exec i (s.setErr c) = exec i s := by
  cases hi : takesInput i with
  | true => rw [exec_takesInput hi, exec_takesInput hi, State.setErr_mcap, runOnInput_setErr]
  | false =>
    obtain rfl | ⟨a, rfl⟩ | rfl := takesInput_eq_false hi
    · rfl
    · rfl
    · exact execXfer_setErr s c

theorem hostWriteCmd_setErr (w : Byte) (s : State) (c : BitVec 3) :
    hostWriteCmd w (s.setErr c) = hostWriteCmd w s := by
  cases hw : decodeWord w with
  | error r => rw [hostWriteCmd_illegal hw, hostWriteCmd_illegal hw]; rfl
  | ok i => rw [hostWriteCmd_legal hw, hostWriteCmd_legal hw, exec_setErr]

/-! ## What the result of a command depends on -/

/-- The two states show the host the same result: STATUS, OLEN and every OBUF cell. -/
abbrev SameResult (t t' : State) : Prop :=
  t'.err = t.err ∧ t'.olen = t.olen ∧ ∀ j, t'.obuf.read j = t.obuf.read j

/-- A failure shows the same whatever it started from. -/
theorem fail_sameResult (k : ErrorKind) (s s' : State) : SameResult (fail k s) (fail k s') :=
  ⟨rfl, rfl, fun _ => rfl⟩

/-- The end of a command shows the same in two states of the same capacity. -/
theorem finish_sameResult (r : Seq) {s s' : State} (h : s'.mcap = s.mcap) :
    SameResult (finish r s) (finish r s') := by
  obtain ⟨k, hf, rfl | ⟨rfl, xs, rfl, hx⟩⟩ | ⟨xs, rfl, hx, hf⟩ := finish_cases r s
  · exact fail_sameResult k s s'
  · rw [hf, finish_ok_over (h ▸ hx)]; exact fail_sameResult _ s s'
  · rw [hf, finish_ok_fits (h ▸ hx)]; exact ⟨rfl, rfl, fun _ => rfl⟩

/-- The template shows the same in two states of the same capacity with the same ILEN and IN. -/
theorem runOnInput_sameResult {w : Byte} {le : Nat → Option ErrorKind} {fn : List Byte → Seq}
    {s s' t : State} (hm : s'.mcap = s.mcap) (hl : s'.ilen = s.ilen) (hin : s'.readIn = s.readIn)
    (h : runOnInput w le fn s = .next t) :
    ∃ t', runOnInput w le fn s' = .next t' ∧ SameResult t t' := by
  obtain ⟨hc, rfl⟩ | ⟨hc, k, hk, rfl⟩ | ⟨hc, hk, xs, hx, rfl⟩ := runOnInput_cases h
  all_goals rw [← hm, ← hl] at hc
  · exact ⟨_, runOnInput_over hc, fail_sameResult _ _ _⟩
  · exact ⟨_, runOnInput_lengthError hc (hl ▸ hk), fail_sameResult _ _ _⟩
  · exact ⟨_, runOnInput_ready hc (hl ▸ hk) (hin ▸ hx), finish_sameResult _ hm⟩

theorem State.readIn_congr {s s' : State} (hl : s.ilen = s'.ilen)
    (hc : ∀ j < s.ilen.toNat, s.ibuf.read j = s'.ibuf.read j) : s'.readIn = s.readIn := by
  unfold State.readIn
  rw [← hl, Memory.readSeq_congr hc]

theorem State.readOut_congr {s s' : State} (hl : s.olen = s'.olen)
    (hc : ∀ j < s.olen.toNat, s.obuf.read j = s'.obuf.read j) : s'.readOut = s.readOut := by
  unfold State.readOut
  rw [← hl, Memory.readSeq_congr hc]

/-- A command that takes IN, and GEOM, depend on the capacity and IN alone. -/
theorem exec_sameResult {i : Instr} {s s' t : State} (hx : i ≠ .xfer) (hn : i ≠ .nop)
    (hcfg : s.cfg = s'.cfg) (hl : s.ilen = s'.ilen)
    (hc : ∀ j < s.ilen.toNat, s.ibuf.read j = s'.ibuf.read j) (h : exec i s = .next t) :
    ∃ t', exec i s' = .next t' ∧ SameResult t t' := by
  have hm : s'.mcap = s.mcap := congrArg Config.mcap hcfg.symm
  cases hi : takesInput i with
  | true =>
    rw [exec_takesInput hi] at h ⊢
    rw [hm]
    exact runOnInput_sameResult hm hl.symm (State.readIn_congr hl hc) h
  | false =>
    obtain rfl | ⟨a, rfl⟩ | rfl := takesInput_eq_false hi
    · exact absurd rfl hn
    · cases h; exact ⟨_, rfl, rfl, rfl, fun _ => rfl⟩
    · exact absurd rfl hx

/-- XFER's copy puts element j in cell j. -/
theorem State.read_copied {s : State} {xs : List Byte} {j : Nat} (h : xs.length ≤ s.mcap)
    (hj : j < xs.length) : (s.writeIbufFrom 0 xs).ibuf.read j = xs[j]? := by
  rw [State.read_writeIbufFrom s 0 xs (by omega), if_pos (by omega), Nat.sub_zero]

/-- XFER depends on OUT alone. -/
theorem exec_xfer_sameInput {s s' t : State} (hcfg : s.cfg = s'.cfg) (hl : s.olen = s'.olen)
    (hc : ∀ j < s.olen.toNat, s.obuf.read j = s'.obuf.read j) (h : exec .xfer s = .next t)
    (hb : s.olen.toNat ≤ s.mcap) :
    ∃ t', exec .xfer s' = .next t' ∧ t'.err = t.err ∧ t'.ilen = t.ilen ∧
      ∀ j < s.olen.toNat, t'.ibuf.read j = t.ibuf.read j := by
  have hm : s'.mcap = s.mcap := congrArg Config.mcap hcfg.symm
  obtain ⟨xs, ho, rfl⟩ := exec_xfer_eq_next h
  have ho' : s'.readOut = some xs := (State.readOut_congr hl hc).trans ho
  obtain ⟨hlen, -⟩ := State.readOut_eq_some.mp ho
  refine ⟨_, exec_xfer_of_readOut ho', rfl, hl.symm, fun j hj => ?_⟩
  rw [← hlen] at hb hj
  calc _ = xs[j]? := State.read_copied (s := s'.storeCmd (encodeWord .xfer)) (hm ▸ hb) hj
    _ = _ := (State.read_copied (s := s.storeCmd (encodeWord .xfer)) hb hj).symm

/-- A command other than XFER leaves its input in place. -/
theorem exec_keeps_input {i : Instr} {s t : State} (hx : i ≠ .xfer) (h : exec i s = .next t) :
    t.cfg = s.cfg ∧ t.ilen = s.ilen ∧ t.ibuf = s.ibuf := by
  cases hi : takesInput i with
  | true =>
    rw [exec_takesInput hi] at h
    obtain ⟨hcfg, -, hl, hbuf, -, -⟩ := runOnInput_frame h
    exact ⟨hcfg, hl, hbuf⟩
  | false =>
    obtain rfl | ⟨a, rfl⟩ | rfl := takesInput_eq_false hi
    · cases h; exact ⟨rfl, rfl, rfl⟩
    · cases h; exact ⟨rfl, rfl, rfl⟩
    · exact absurd rfl hx

/-- Any command issued again gives the same STATUS and OUT: its input is still in place. -/
theorem exec_again_sameResult {i : Instr} {s t : State} (h : exec i s = .next t) :
    ∃ t', exec i t = .next t' ∧ SameResult t t' := by
  by_cases hx : i = .xfer
  · subst hx
    obtain ⟨xs, ho, rfl⟩ := exec_xfer_eq_next h
    exact ⟨_, exec_xfer_of_readOut (xs := xs) (by simpa using ho), by simp [SameResult]⟩
  · by_cases hn : i = .nop
    · subst hn; cases h; exact ⟨_, rfl, rfl, rfl, fun _ => rfl⟩
    · obtain ⟨hcfg, hl, hbuf⟩ := exec_keeps_input hx h
      exact exec_sameResult hx hn hcfg.symm hl.symm (fun j _ => by rw [hbuf]) h

/-! ## The obligations -/

/-- Settles O14: every command ends by `fail` or `succeed`, which overwrite ERR, and no command reads
it. -/
theorem statusHoldsTheLastCode : Obligations.StatusHoldsTheLastCode := by
  unfold Obligations.StatusHoldsTheLastCode
  exact ⟨fun s => ⟨s.status_toNat, s.status_toNat ▸ s.err.isLt⟩, rfl,
    fun w s c => hostWriteCmd_setErr w s c, fun _ _ _ => hostWriteCmd_ends_with_its_code,
    fun k _ => ⟨rfl, k.code_ne_zero⟩, fun _ => rfl, fun _ _ _ => hostEvent_keeps_err⟩

/-- Settles O35: the template reads the capacity and IN alone, XFER reads OUT alone, and no command
but XFER changes IN. -/
theorem resultDependsOnTheInputAlone : Obligations.ResultDependsOnTheInputAlone := by
  unfold Obligations.ResultDependsOnTheInputAlone
  refine ⟨fun _ _ _ _ => exec_sameResult, fun s s' => ⟨_, _, exec_nop s, exec_nop s', rfl⟩,
    fun _ _ _ => exec_xfer_sameInput, fun w s s' ⟨r, hr⟩ => ?_, fun _ _ _ => exec_again_sameResult⟩
  exact ⟨_, _, hostWriteCmd_illegal hr s, hostWriteCmd_illegal hr s', fail_sameResult _ _ _⟩

/-- Settles O6: both ends of a command keep its word in CMD. -/
theorem hostRegisterWrites : Obligations.HostRegisterWrites := by
  unfold Obligations.HostRegisterWrites
  exact ⟨fun _ _ _ => hostWriteCmd_cmd, fun _ _ s h => hostWriteCmd_legal h s,
    fun _ s h => hostWriteCmd_illegal_ends h s, fun _ _ => rfl, fun _ _ => rfl, fun _ _ => rfl,
    fun _ _ => rfl⟩

/-- Settles O8, by read after write of a cell. -/
theorem hostWritesInputCell : Obligations.HostWritesInputCell := by
  unfold Obligations.HostWritesInputCell
  intro s i v hi
  refine ⟨_, rfl, fun j => ?_, by simp⟩
  rw [State.writeIbufCell_ibuf, if_pos hi, Memory.read_write]

/-- Settles O9: ignored writes answer the same state, and the answer to a cell read at or above MCAP is
a fault. -/
theorem accessesToWhatDoesNotExist : Obligations.AccessesToWhatDoesNotExist := by
  unfold Obligations.AccessesToWhatDoesNotExist
  refine ⟨fun _ _ _ => rfl, fun _ _ _ => rfl, fun i v s hi => ?_, fun n s hn => ?_,
    fun i s t hi => ⟨answerCell_ne_next hi, answerCell_ne_next hi⟩⟩
  · exact congrArg Host.Outcome.next (s.writeIbufCell_absent v hi)
  · obtain ⟨k, rfl⟩ := Nat.exists_eq_add_of_le' hn
    exact ⟨rfl, _, rfl, rfl⟩

/-- Settles O12: the reset state as `10_state.md` R33 lists it. -/
theorem resetLeavesEmptySequences : Obligations.ResetLeavesEmptySequences := by
  unfold Obligations.ResetLeavesEmptySequences
  exact ⟨rfl, rfl, rfl, rfl, rfl, fun i => ⟨Memory.read_nil i, Memory.read_nil i⟩⟩

end Sys2Proof.Machine
end

section
/-! SUPPORT. Which words are commands: `30_encoding.md` R76's checks on the fields, read on the word, and
the legal words in the order of their numbers. -/

namespace Sys2Proof

/-! ## The fields of a word -/

theorem Fields.ofWord_op_toNat (w : Byte) : (Fields.ofWord w).op.toNat = w.toNat / 16 := by
  have := w.isLt
  rw [Fields.ofWord, BitVec.extractLsb'_toNat, Nat.shiftRight_eq_div_pow]
  omega

theorem Fields.ofWord_f_eq_true {w : Byte} : (Fields.ofWord w).f = true ↔ w.toNat / 8 % 2 = 1 := by
  simp [Fields.ofWord, BitVec.getLsbD, Nat.testBit_eq_decide_div_mod_eq]

theorem Fields.ofWord_a_toNat (w : Byte) : (Fields.ofWord w).a.toNat = w.toNat % 8 := by
  simp [Fields.ofWord]

/-! ## The checks of R76 -/

/-- Some check of R76 refuses the fields exactly when one of the four holds: the order of the checks
only says which of them is reported. -/
theorem Fields.illegal_ne_none_iff_check {x : Fields} : x.illegal ≠ none ↔
    x.opReserved = true ∨
    (x.opTakesNoAlphabet = false ∧ x.a.toNat = 7) ∨
    (x.opTakesNoAlphabet = true ∧ x.a.toNat ≠ 0) ∨
    (x.f = true ∧ x.opTakesFlag = false) := by
  unfold Fields.illegal
  split_ifs <;> simp_all

/-- The checks of R76 in numbers: a reserved OP is refused already, so the OPs with an alphabet are 1 to
9. -/
theorem Fields.illegal_ne_none_iff {x : Fields} : x.illegal ≠ none ↔
    0xB ≤ x.op.toNat ∨
    (1 ≤ x.op.toNat ∧ x.op.toNat ≤ 9 ∧ x.a.toNat = 7) ∨
    ((x.op.toNat = 0 ∨ x.op.toNat = 0xA) ∧ x.a.toNat ≠ 0) ∨
    (x.f = true ∧ x.op.toNat ≠ 4 ∧ x.op.toNat ≠ 5 ∧ x.op.toNat ≠ 7) := by
  simp only [Fields.illegal_ne_none_iff_check, Fields.opReserved, Fields.opTakesNoAlphabet,
    Fields.opTakesFlag, decide_eq_true_eq, Bool.or_eq_true, Bool.or_eq_false_iff, beq_iff_eq,
    beq_eq_false_iff_ne]
  grind

/-- Every A but the reserved 7 selects an alphabet (`30_encoding.md` R72). -/
theorem Alphabet.ofId_eq_some {a : BitVec 3} (h : a.toNat ≠ 7) : ∃ b, Alphabet.ofId a = some b := by
  have hall : ∀ a : BitVec 3, a.toNat ≠ 7 → (Alphabet.ofId a).isSome := by decide
  exact Option.isSome_iff_exists.mp (hall a h)

/-- Every OP that is not reserved is the OP of a command (`30_encoding.md` R73). -/
theorem Instr.ofOp_eq_some {op : Nat} (h : op < 0xB) (f : Bool) (a : Alphabet) :
    ∃ i, Instr.ofOp op f a = some i := by
  interval_cases op <;> exact ⟨_, rfl⟩

/-- The checks of R76 are all that decoding refuses: behind them the alphabet and the OP are there. -/
theorem decodeFields_eq_error_iff {x : Fields} :
    (∃ r, decodeFields x = .error r) ↔ x.illegal ≠ none := by
  unfold decodeFields
  cases hx : x.illegal with
  | some r => simp
  | none =>
    have hlegal := mt Fields.illegal_ne_none_iff.mpr (not_not.mpr hx)
    obtain ⟨a, ha⟩ := Alphabet.ofId_eq_some (a := x.a) (by omega)
    obtain ⟨i, hi⟩ := Instr.ofOp_eq_some (op := x.op.toNat) (by omega) x.f a
    simp [ha, hi]

end Sys2Proof

namespace Sys2Proof.Machine

open Sys2Proof.Claims

/-- R76's conditions on the word itself. -/
theorem illegal_iff (w : Byte) : Illegal w ↔
    0xB ≤ w.toNat / 16 ∨
    (1 ≤ w.toNat / 16 ∧ w.toNat / 16 ≤ 9 ∧ w.toNat % 8 = 7) ∨
    ((w.toNat / 16 = 0 ∨ w.toNat / 16 = 0xA) ∧ w.toNat % 8 ≠ 0) ∨
    (w.toNat / 8 % 2 = 1 ∧ w.toNat / 16 ≠ 4 ∧ w.toNat / 16 ≠ 5 ∧ w.toNat / 16 ≠ 7) := by
  rw [Illegal, decodeWord, decodeFields_eq_error_iff, Fields.illegal_ne_none_iff,
    Fields.ofWord_op_toNat, Fields.ofWord_a_toNat, Fields.ofWord_f_eq_true]

/-! ## The legal words -/

/-- The alphabets in the order of their identifiers. -/
def alphabets : List Alphabet :=
  [.base16, .base16upper, .base32, .base32hex, .base64, .base64url, .octal]

/-- The commands in the order of their words: by OP, then F, then A. -/
def commands : List Instr :=
  [.nop] ++ alphabets.map .pack ++ alphabets.map .unpack ++ alphabets.map .v2c ++
    alphabets.map (.c2v false) ++ alphabets.map (.c2v true) ++
    alphabets.map (.pada false) ++ alphabets.map (.pada true) ++ alphabets.map .pads ++
    alphabets.map (.encode false) ++ alphabets.map (.encode true) ++
    alphabets.map .decode ++ alphabets.map .geom ++ [.xfer]

/-- Decoding the 256 words in order gives every command once. -/
theorem filterMap_decodeWord_eq_commands :
    (List.range 256).filterMap (fun w => (decodeWord (BitVec.ofNat 8 w)).toOption) = commands := by
  decide

/-- Counting words is counting commands. -/
theorem countWords_eq_countP_commands (p : Instr → Bool) : countWords p = commands.countP p := by
  rw [← filterMap_decodeWord_eq_commands, List.countP_filterMap, List.countP_eq_length_filter]
  unfold countWords
  congr 2
  funext w
  cases decodeWord (BitVec.ofNat 8 w) <;> rfl

/-- Settles O3: decoding refuses exactly what R76's checks refuse, every illegal word ends in the one
failure, and the legal words are the words of the commands, once each. -/
theorem illegalWordsFailWithCode6 : Obligations.IllegalWordsFailWithCode6 := by
  unfold Obligations.IllegalWordsFailWithCode6
  simp only [countWords_eq_countP_commands]
  exact ⟨illegal_iff, fun w s h => hostWriteCmd_illegal_ends h s, by decide⟩

end Sys2Proof.Machine
end

section
/-! SUPPORT. How a command that takes IN ends, from its input and its function: the three ends in
which every command statement is written (`30_encoding.md` R78). A proof about one command decodes its
word, says what its function gives, and cites these. -/

namespace Sys2Proof.Machine

open Sys2Proof.Claims

/-! ## The two end states -/

theorem fail_ends (k : ErrorKind) (s : State) (w : Byte) :
    Ends s w k.code [] (fail k (s.storeCmd w)) := by
  simp [Ends]

/-- A result within MCAP has its length in OLEN and its elements in OBUF. -/
theorem succeed_setOut_ends {s : State} {xs : List Byte} (h : xs.length ≤ s.mcap) (w : Byte) :
    Ends s w 0 xs (succeed ((s.storeCmd w).setOut xs)) := by
  have hlen : (BitVec.ofNat 16 xs.length).toNat = xs.length :=
    olen_ofNat (h.trans s.mcap_bounds.2)
  simp [Ends, hlen]

/-! ## From the input to the end -/

/-- The input of the statements is the input the template reads. -/
theorem readIn_of_inputIs {s : State} {xs : List Byte} (h : InputIs s xs) :
    s.ilen.toNat ≤ s.mcap ∧ s.readIn = some xs := by
  obtain ⟨hlen, hcap, hcell⟩ := h
  exact ⟨hlen ▸ hcap, State.readIn_eq_some.mpr ⟨hlen.symm, fun j hj => hcell j (hlen ▸ hj)⟩⟩

section
variable {i : Instr} {w : Byte} {s : State} {xs : List Byte} (hi : takesInput i = true)
  (hw : decodeWord w = .ok i)
include hi hw

/-- A command that takes IN is the template with its own word. -/
theorem exec_of_decodeWord :
    exec i s = runOnInput w (lengthErrorOf i s.mcap) (functionOf i) s :=
  encodeWord_of_decodeWord hw ▸ exec_takesInput hi s

/-- `60_exceptions.md` R204. -/
theorem completes_of_over (h : s.mcap < s.ilen.toNat) : Completes i s w 7 [] :=
  ⟨_, (exec_of_decodeWord hi hw).trans (runOnInput_over h), fail_ends .capacityExceeded s w⟩

variable (hin : InputIs s xs) (hlen : lengthErrorOf i s.mcap xs.length = none)
include hin hlen

theorem exec_of_inputIs : exec i s = .next (finish (functionOf i xs) (s.storeCmd w)) := by
  obtain ⟨hcap, hread⟩ := readIn_of_inputIs hin
  obtain ⟨hilen, -, -⟩ := hin
  rw [exec_of_decodeWord hi hw, runOnInput_ready hcap (hilen ▸ hlen) hread]

/-- The error of the function is the code the command ends with. -/
theorem completes_of_error {k : ErrorKind} (hf : functionOf i xs = .error k) :
    Completes i s w k.code [] :=
  ⟨_, exec_of_inputIs hi hw hin hlen, by rw [hf, finish_error]; exact fail_ends k s w⟩

/-- The result of the function is OUT, where it fits in OBUF. -/
theorem completes_of_ok {ys : List Byte} (hf : functionOf i xs = .ok ys)
    (hcap : ys.length ≤ s.mcap) : Completes i s w 0 ys :=
  ⟨_, exec_of_inputIs hi hw hin hlen, by
    rw [hf, finish_ok_fits (by simpa using hcap)]; exact succeed_setOut_ends hcap w⟩

end

end Sys2Proof.Machine
end

section
/-! SUPPORT. The alphabets (`40_alphabet.md`): the tables, the two lookups of one element, the
element-wise lookups of a sequence, and what they make of V2C, C2V and DECODE. -/

namespace Sys2Proof.Machine

open Sys2Proof.Claims

/-! ## The tables -/

/-- `40_alphabet.md` R90. -/
theorem table_length (a : Alphabet) : (table a).length = 2 ^ symbolBits a := by
  cases a <;> decide

/-- Every place in a table is a value of a cell. -/
theorem table_length_lt (a : Alphabet) : (table a).length < 2 ^ 8 := by
  cases a <;> decide

/-- `40_alphabet.md` R90. -/
theorem table_nodup (a : Alphabet) : (table a).Nodup := by
  cases a <;> decide

/-- `40_alphabet.md` R93. -/
theorem padChar_notMem_table (a : Alphabet) : padChar ∉ table a := by
  cases a <;> decide

/-- Settles O40: the seven tables of `40_alphabet.md` R91. -/
theorem tablesAreDistinctCharacters : Obligations.TablesAreDistinctCharacters := by
  unfold Obligations.TablesAreDistinctCharacters
  exact fun a => ⟨table_length a, table_nodup a⟩

/-! ## The lookup of one element -/

@[simp] theorem valueToChar1_toOption (a : Alphabet) (v : Byte) :
    (valueToChar1 a v).toOption = (table a)[v.toNat]? := by
  unfold valueToChar1
  cases (table a)[v.toNat]? <;> rfl

/-- A value below 2^n has a character (`40_alphabet.md` R94). -/
theorem valueToChar1_of_lt {a : Alphabet} {v : Byte} (h : v.toNat < 2 ^ symbolBits a) :
    ∃ c, valueToChar1 a v = .ok c := by
  rw [← table_length] at h
  exact ⟨_, by rw [valueToChar1, List.getElem?_eq_getElem h]⟩

/-- A value of 2^n or more has none (`40_alphabet.md` R94). -/
theorem valueToChar1_of_ge {a : Alphabet} {v : Byte} (h : 2 ^ symbolBits a ≤ v.toNat) :
    valueToChar1 a v = .error .noCorrespondingAlphabetCharacter := by
  rw [← table_length] at h
  rw [valueToChar1, List.getElem?_eq_none h]

/-- A character of the alphabet has the value of its place in the table (`40_alphabet.md` R94). -/
theorem charToValue1_of_mem {a : Alphabet} {c : Byte} (f : Bool) (h : c ∈ table a) :
    ∃ v, charToValue1 a f c = .ok v ∧ (table a)[v.toNat]? = some c := by
  cases hi : indexOf c (table a) with
  | none => exact absurd h (indexOf_eq_none.mp hi)
  | some v =>
    have hc := indexOf_eq_some hi
    obtain ⟨hv, -⟩ := List.getElem?_eq_some_iff.mp hc
    refine ⟨BitVec.ofNat 8 v, by rw [charToValue1, hi], ?_⟩
    rwa [BitVec.toNat_ofNat, Nat.mod_eq_of_lt (hv.trans (table_length_lt a))]

/-- Outside the alphabet an allowed pad character has the pad marker (`40_alphabet.md` R97), and any
other character is an error. -/
theorem charToValue1_of_notMem {a : Alphabet} {c : Byte} (f : Bool) (h : c ∉ table a) :
    charToValue1 a f c =
      if c = padChar ∧ f = true then .ok padMarker else .error .outOfAlphabetCharacter := by
  rw [charToValue1, indexOf_eq_none.mpr h]

/-! ## The element-wise map -/

/-- Element j of the result is the result on element j. -/
theorem mapCells_getElem? {fn : Byte → Except ErrorKind Byte} {xs ys : List Byte}
    (h : mapCells fn xs = .ok ys) (j : Nat) :
    ys[j]? = xs[j]?.bind fun x => (fn x).toOption := by
  rw [mapCells_eq_ok] at h
  induction h generalizing j with
  | nil => rfl
  | cons hxy _ ih =>
    cases j with
    | zero => simp [hxy, Except.toOption]
    | succ j => simpa using ih j

theorem mapCells_length {fn : Byte → Except ErrorKind Byte} {xs ys : List Byte}
    (h : mapCells fn xs = .ok ys) : ys.length = xs.length :=
  (mapCells_eq_ok.mp h).length_eq.symm

/-- The map succeeds where every element does. -/
theorem mapCells_of_forall_ok {fn : Byte → Except ErrorKind Byte} {xs : List Byte}
    (h : ∀ x ∈ xs, ∃ y, fn x = .ok y) : ∃ ys, mapCells fn xs = .ok ys := by
  induction xs with
  | nil => exact ⟨[], rfl⟩
  | cons x rest ih =>
    obtain ⟨hx, hrest⟩ := List.forall_mem_cons.mp h
    obtain ⟨y, hy⟩ := hx
    obtain ⟨ys, hys⟩ := ih hrest
    exact ⟨y :: ys, mapCells_eq_ok.mpr (.cons hy (mapCells_eq_ok.mp hys))⟩

/-! ## The lookups of a sequence -/

theorem valueToChar_of_exists_ge {a : Alphabet} {xs : List Byte}
    (h : ∃ x ∈ xs, 2 ^ symbolBits a ≤ x.toNat) :
    valueToChar a xs = .error .noCorrespondingAlphabetCharacter := by
  obtain ⟨x, hx, hge⟩ := h
  refine mapCells_eq_error (fun y _ k hk => ?_) ⟨x, hx, _, valueToChar1_of_ge hge⟩
  obtain hlt | hge := Nat.lt_or_ge y.toNat (2 ^ symbolBits a)
  · obtain ⟨c, hc⟩ := valueToChar1_of_lt hlt
    rw [hc] at hk; cases hk
  · rw [valueToChar1_of_ge hge] at hk; cases hk; rfl

theorem valueToChar_of_forall_lt {a : Alphabet} {xs : List Byte}
    (h : ∀ x ∈ xs, x.toNat < 2 ^ symbolBits a) : ∃ ys, valueToChar a xs = .ok ys :=
  mapCells_of_forall_ok fun x hx => valueToChar1_of_lt (h x hx)

theorem charToValue_of_exists_outside {a : Alphabet} {f : Bool} {xs : List Byte}
    (h : ∃ x ∈ xs, x ∉ table a ∧ ¬(f = true ∧ x = padChar)) :
    charToValue a f xs = .error .outOfAlphabetCharacter := by
  obtain ⟨x, hx, hout, hpad⟩ := h
  refine mapCells_eq_error (fun y _ k hk => ?_)
    ⟨x, hx, _, (charToValue1_of_notMem f hout).trans (if_neg (mt And.symm hpad))⟩
  by_cases hy : y ∈ table a
  · obtain ⟨v, hv, -⟩ := charToValue1_of_mem f hy
    rw [hv] at hk; cases hk
  · rw [charToValue1_of_notMem f hy] at hk
    split at hk <;> cases hk
    rfl

theorem charToValue_of_forall_inside {a : Alphabet} {f : Bool} {xs : List Byte}
    (h : ∀ x ∈ xs, x ∈ table a ∨ (f = true ∧ x = padChar)) :
    ∃ ys, charToValue a f xs = .ok ys := by
  refine mapCells_of_forall_ok fun x hx => ?_
  by_cases hmem : x ∈ table a
  · obtain ⟨v, hv, -⟩ := charToValue1_of_mem f hmem
    exact ⟨v, hv⟩
  · have hpad := (h x hx).resolve_left hmem
    exact ⟨padMarker, (charToValue1_of_notMem f hmem).trans (if_pos hpad.symm)⟩

/-- What the value of a character is: its place in the table, or the pad marker. -/
theorem charToValue_getElem? {a : Alphabet} {f : Bool} {xs ys : List Byte} {j : Nat} {x y : Byte}
    (h : charToValue a f xs = .ok ys) (hx : xs[j]? = some x) (hy : ys[j]? = some y) :
    (x ∈ table a → (table a)[y.toNat]? = some x) ∧ (x ∉ table a → y = padMarker) := by
  have hxy : (charToValue1 a f x).toOption = some y := by
    simpa [hx, hy] using (mapCells_getElem? h j).symm
  constructor <;> intro hmem
  · obtain ⟨v, hv, hc⟩ := charToValue1_of_mem f hmem
    rw [hv] at hxy; cases hxy; exact hc
  · rw [charToValue1_of_notMem f hmem] at hxy
    split at hxy <;> cases hxy
    rfl

/-! ## V2C and C2V -/

theorem decodeWord_v2c (a : Alphabet) :
    decodeWord (BitVec.ofNat 8 (0x30 + a.id.toNat)) = .ok (.v2c a) := by
  cases a <;> decide

theorem decodeWord_c2v (f : Bool) (a : Alphabet) :
    decodeWord (BitVec.ofNat 8 (0x40 + 8 * f.toNat + a.id.toNat)) = .ok (.c2v f a) := by
  cases f <;> cases a <;> decide

/-- Settles O24: V2C ends as the element-wise lookup of a value does. -/
theorem v2cLooksUpEveryValue : Obligations.V2cLooksUpEveryValue := by
  unfold Obligations.V2cLooksUpEveryValue
  refine ⟨decodeWord_v2c, fun w hlo hhi => (illegal_iff w).mpr (by omega), fun a s =>
    ⟨completes_of_over rfl (decodeWord_v2c a), fun xs hin => ⟨fun hge => ?_, fun hlt => ?_⟩⟩⟩
  · exact completes_of_error rfl (decodeWord_v2c a) hin rfl (valueToChar_of_exists_ge hge)
  · obtain ⟨ys, hys⟩ := valueToChar_of_forall_lt hlt
    have hlen : ys.length = xs.length := mapCells_length hys
    have ⟨_, hcap, _⟩ := hin
    refine ⟨ys, completes_of_ok rfl (decodeWord_v2c a) hin rfl hys (hlen ▸ hcap), hlen, fun j => ?_⟩
    simpa using mapCells_getElem? hys j

/-- Settles O25: C2V ends as the element-wise lookup of a character does. -/
theorem c2vLooksUpEveryCharacter : Obligations.C2vLooksUpEveryCharacter := by
  unfold Obligations.C2vLooksUpEveryCharacter
  refine ⟨decodeWord_c2v, (illegal_iff _).mpr (by decide), (illegal_iff _).mpr (by decide),
    fun f a s => ⟨completes_of_over rfl (decodeWord_c2v f a),
      fun xs hin => ⟨fun hout => ?_, fun hinside => ?_⟩⟩⟩
  · exact completes_of_error rfl (decodeWord_c2v f a) hin rfl (charToValue_of_exists_outside hout)
  · obtain ⟨ys, hys⟩ := charToValue_of_forall_inside hinside
    have hlen : ys.length = xs.length := mapCells_length hys
    have ⟨_, hcap, _⟩ := hin
    exact ⟨ys, completes_of_ok rfl (decodeWord_c2v f a) hin rfl hys (hlen ▸ hcap), hlen,
      fun j x y => charToValue_getElem? hys⟩

/-! ## DECODE against the wrong alphabet -/

theorem decodeWord_decode (a : Alphabet) :
    decodeWord (BitVec.ofNat 8 (0x80 + a.id.toNat)) = .ok (.decode a) := by
  cases a <;> decide

/-- An uninterrupted padding is stripped whole (`44_padder.md` R159). -/
theorem padStrip_append_replicate {u : List Byte} (h : padChar ∉ u) (r : Nat) :
    padStrip (u ++ List.replicate r padChar) = .ok u := by
  have hu : ∀ c ∈ u, (c != padChar) = true := fun c hc => bne_iff_ne.mpr fun he => h (he ▸ hc)
  rw [padStrip, List.dropWhile_append_of_pos hu, List.takeWhile_append_of_pos hu]
  cases r <;> simp [List.replicate_succ]

/-- A character outside the alphabet before the padding is the error of `Decode`: the lookup fails,
whatever the later stage makes of the other characters. -/
theorem decodeText_of_exists_outside {a : Alphabet} {u : List Byte} (hpad : padChar ∉ u) (r : Nat)
    (h : ∃ c ∈ u, c ∉ table a) :
    decodeText a (u ++ List.replicate r padChar) = .error .outOfAlphabetCharacter := by
  obtain ⟨c, hc, hout⟩ := h
  rw [decodeText, padStrip_append_replicate hpad, andThen_ok,
    charToValue_of_exists_outside ⟨c, hc, hout, by simp⟩, andThen_error]

theorem decode_completes_of_exists_outside {a : Alphabet} {s : State} {u : List Byte} {r : Nat}
    (hin : InputIs s (u ++ List.replicate r padChar)) (hpad : padChar ∉ u)
    (h : ∃ c ∈ u, c ∉ table a) :
    Completes (.decode a) s (BitVec.ofNat 8 (0x80 + a.id.toNat)) 1 [] :=
  completes_of_error rfl (decodeWord_decode a) hin rfl (decodeText_of_exists_outside hpad r h)

/-- The text "FF" of the spec's scenario 6 in upper-case hexadecimal. -/
theorem decodeText_base16upper_FF : decodeText .base16upper [0x46, 0x46] = .ok [0xFF] := by decide

/-- Settles O42: the lookup of the foreign character fails; the text "FF" is one without padding. -/
theorem alphabetIsolation : Obligations.AlphabetIsolation := by
  unfold Obligations.AlphabetIsolation
  refine ⟨fun a b s u r c hin hpad hc _ hout =>
    decode_completes_of_exists_outside hin hpad ⟨c, hc, hout⟩, fun s hin => ⟨?_, ?_⟩⟩
  · exact decode_completes_of_exists_outside (u := [0x46, 0x46]) (r := 0) hin (by decide)
      (by decide)
  · have hfits : ([0xFF] : List Byte).length ≤ s.mcap := Nat.le_trans (by decide) s.mcap_bounds.1
    exact completes_of_ok rfl (decodeWord_decode .base16upper) hin rfl decodeText_base16upper_FF
      hfits

end Sys2Proof.Machine
end

section
/-! SUPPORT. Bit-width arithmetic (`41_bitwidth.md`): Euclid's algorithm with its bound is the library's
gcd, and GEOM ends with the geometry of its alphabet. -/

namespace Sys2Proof.Machine

open Sys2Proof.Claims

/-! ## Euclid's algorithm -/

/-- The library's recursion in the argument order of `41_bitwidth.md` R111. -/
theorem gcd_eq_gcd_mod (a b : Nat) : Nat.gcd a b = Nat.gcd b (a % b) := by
  rw [Nat.gcd_comm a b, Nat.gcd_rec b a, Nat.gcd_comm]

/-- Every round lowers the second argument, so a bound of at least b is never met. -/
theorem euclid_eq_gcd {fuel a b : Nat} (h : b ≤ fuel) : euclid fuel a b = Nat.gcd a b := by
  induction fuel generalizing a b with
  | zero => rw [Nat.le_zero.mp h, euclid, Nat.gcd_zero_right]
  | succ fuel ih =>
    rw [euclid]
    split
    · next hb => rw [hb, Nat.gcd_zero_right]
    · next hb =>
      have hlt : a % b < b := Nat.mod_lt a (Nat.pos_of_ne_zero hb)
      rw [ih (by omega), ← gcd_eq_gcd_mod]

@[simp] theorem euclidGcd_eq_gcd (a b : Nat) : euclidGcd a b = Nat.gcd a b :=
  euclid_eq_gcd (Nat.le_refl b)

/-- Settles O38: the bounded algorithm is the gcd, which follows the recurrence. -/
theorem gcdFollowsEuclid : Obligations.GcdFollowsEuclid := by
  unfold Obligations.GcdFollowsEuclid
  refine ⟨fun a _ => ?_, fun a b _ _ => ?_, fun _ _ => rfl⟩
  · rw [euclidGcd_eq_gcd, Nat.gcd_zero_right]
  · rw [euclidGcd_eq_gcd, euclidGcd_eq_gcd, gcd_eq_gcd_mod]

/-! ## GEOM -/

theorem decodeWord_geom (a : Alphabet) :
    decodeWord (BitVec.ofNat 8 (0x90 + a.id.toNat)) = .ok (.geom a) := by
  cases a <;> decide

/-- Four numbers fit in OBUF at every capacity (`41_bitwidth.md` R116), so GEOM always succeeds. -/
theorem geom_completes {a : Alphabet} {xs : List Byte} (h : geom a = xs) (s : State) :
    Completes (.geom a) s (BitVec.ofNat 8 (0x90 + a.id.toNat)) 0 xs := by
  subst h
  have hfits : (geom a).length ≤ s.mcap := Nat.le_trans (by simp [geom]) s.mcap_bounds.1
  refine ⟨_, exec_geom a s, ?_⟩
  rw [encodeWord_of_decodeWord (decodeWord_geom a)]
  exact succeed_setOut_ends hfits _

/-- Settles O21: GEOM reads no cell, and the geometry of each alphabet is its row of R116. -/
theorem geomReportsTheGeometry : Obligations.GeomReportsTheGeometry := by
  unfold Obligations.GeomReportsTheGeometry
  refine ⟨fun a s => ?_, decodeWord_geom, fun w hlo hhi => (illegal_iff w).mpr (by omega)⟩
  cases a <;> exact geom_completes (by decide) s

end Sys2Proof.Machine
end

section
/-! SUPPORT. Bit strings (`20_memory.md` R52): the bits of a number cut in two, of a positional number
and of a number cut into parts of equal width. -/

namespace Sys2Proof.Machine

open Sys2Proof.Claims

/-! ## The bits of a number -/

@[simp] theorem bits_length (n x : Nat) : (bits n x).length = n := by simp [bits]

@[simp] theorem bits_zero (n : Nat) : bits n 0 = List.replicate n false := by simp [bits]

/-- The first m of m + n bits are those above the low n. -/
theorem bits_add (m n x : Nat) : bits (m + n) x = bits m (x >>> n) ++ bits n x := by
  unfold bits
  rw [List.range_add, List.map_append, List.map_map]
  congr 1 <;> refine List.map_congr_left fun i hi => ?_ <;> rw [List.mem_range] at hi
  · rw [Nat.testBit_shiftRight]
    congr 1
    omega
  · rw [Function.comp_apply]
    congr 1
    omega

/-- Bits from k on do not matter to the low n of them. -/
theorem bits_mod {n k : Nat} (h : n ≤ k) (x : Nat) : bits n (x % 2 ^ k) = bits n x := by
  unfold bits
  refine List.map_congr_left fun i hi => ?_
  rw [List.mem_range] at hi
  rw [Nat.testBit_mod_two_pow, decide_eq_true (by omega), Bool.true_and]

/-- The digits of a positional number to the base 2^n, laid end to end, are its bits. -/
theorem bits_positional {n : Nat} {ds : List Nat} (h : ∀ d ∈ ds, d < 2 ^ n) :
    bits (n * ds.length) (positional (2 ^ n) ds) = ds.flatMap (bits n) := by
  induction ds with
  | nil => rfl
  | cons d rest ih =>
    obtain ⟨-, hrest⟩ := List.forall_mem_cons.mp h
    have hlow : positional (2 ^ n) rest < 2 ^ (n * rest.length) :=
      pow_mul 2 n rest.length ▸ positional_lt hrest
    have hW : positional (2 ^ n) (d :: rest) =
        2 ^ (n * rest.length) * d + positional (2 ^ n) rest := by
      rw [positional, ← pow_mul, Nat.mul_comm]
    rw [List.length_cons, Nat.mul_succ, Nat.add_comm, bits_add, List.flatMap_cons, ← ih hrest, hW,
      Nat.shiftRight_eq_div_pow, Nat.mul_add_div (Nat.two_pow_pos _), Nat.div_eq_of_lt hlow,
      Nat.add_zero, ← bits_mod (Nat.le_refl _) (_ + _), Nat.mul_add_mod, bits_mod (Nat.le_refl _)]

/-! ## A number cut into parts of n bits -/

/-- The m parts of n bits of the low n m bits of W, the most significant first: the symbols of
`42_packer.md` R127. -/
def parts (n m W : Nat) : List Nat :=
  (List.range m).map fun j => (W >>> (n * (m - 1 - j))) % 2 ^ n

@[simp] theorem parts_length (n m W : Nat) : (parts n m W).length = m := by simp [parts]

theorem parts_lt {n m W : Nat} : ∀ v ∈ parts n m W, v < 2 ^ n := by
  intro v hv
  obtain ⟨j, -, rfl⟩ := List.mem_map.mp hv
  exact Nat.mod_lt _ (Nat.two_pow_pos n)

/-- The last part is the low n bits, and the others are the parts of what is above them. -/
theorem parts_succ (n m W : Nat) : parts n (m + 1) W = parts n m (W >>> n) ++ [W % 2 ^ n] := by
  unfold parts
  rw [List.range_succ, List.map_append]
  congr 1
  · refine List.map_congr_left fun j hj => ?_
    rw [List.mem_range] at hj
    have hm : m + 1 - 1 - j = m - 1 - j + 1 := by omega
    rw [← Nat.shiftRight_add, hm, Nat.mul_succ, Nat.add_comm n]
  · simp

/-- The parts laid end to end are the bits they were cut from. -/
theorem flatMap_bits_parts (n m W : Nat) : (parts n m W).flatMap (bits n) = bits (n * m) W := by
  induction m generalizing W with
  | zero => rfl
  | succ m ih =>
    rw [parts_succ, List.flatMap_append, ih, List.flatMap_singleton, bits_mod (Nat.le_refl n),
      Nat.mul_succ, bits_add]

/-! ## Sequences -/

/-- Every element is n bits, so the first m elements are the first n m bits. -/
theorem flatMap_bits_take (n m : Nat) (ds : List Nat) :
    (ds.take m).flatMap (bits n) = (ds.flatMap (bits n)).take (n * m) := by
  induction ds generalizing m with
  | nil => simp
  | cons d rest ih =>
    cases m with
    | zero => simp
    | succ m => simp [ih, List.take_append, Nat.mul_succ, List.take_of_length_le]

/-- A cell holds every number of up to 8 bits. -/
theorem bitString_map_ofNat {n : Nat} (h : n ≤ 8) (ds : List Nat) :
    bitString n (ds.map (BitVec.ofNat 8)) = ds.flatMap (bits n) := by
  rw [bitString, List.flatMap_map]
  simp only [BitVec.toNat_ofNat, bits_mod h]

@[simp] theorem bitString_length (n : Nat) (xs : List Byte) :
    (bitString n xs).length = n * xs.length := by
  simp [bitString, List.length_flatMap, Nat.mul_comm]

/-- Zero elements are zero bits. -/
theorem flatMap_bits_zeroPad (n size : Nat) (g : List Byte) :
    (zeroPad size g).flatMap (bits n) =
      bitString n g ++ List.replicate (n * (size - g.length)) false := by
  simp [zeroPad, bitString, List.flatMap_map, List.flatMap_replicate, Nat.mul_comm]

end Sys2Proof.Machine
end

section
/-! SUPPORT. The Packer (`42_packer.md`): its symbols are the parts of the number its byte group spells,
and PACK ends as it says. -/

namespace Sys2Proof.Machine

open Sys2Proof.Claims

/-! ## The geometry of a group -/

theorem symbolBits_width (a : Alphabet) : Width (symbolBits a) := by cases a <;> decide

/-- A full group is whole bytes and whole symbols (`41_bitwidth.md` R114). -/
theorem groupBits_eq {n : Nat} (h : Width n) :
    groupBits n = 8 * groupBytes n ∧ groupBits n = n * groupSyms n := by
  obtain rfl | rfl | rfl | rfl := h <;> decide

/-- The symbols of a full group fit in a buffer of every capacity. -/
theorem groupSyms_le {n : Nat} (h : Width n) : groupSyms n ≤ 8 := by
  obtain rfl | rfl | rfl | rfl := h <;> decide

/-- The symbols of k bytes have room for their bits (`41_bitwidth.md` R115). -/
theorem le_mul_symCount {n : Nat} (h : Width n) (k : Nat) : 8 * k ≤ n * symCount n k := by
  unfold symCount ceilDiv
  obtain rfl | rfl | rfl | rfl := h <;> omega

/-- A group of at most l/8 bytes has at most l/n symbols. -/
theorem symCount_le_groupSyms {n k : Nat} (h : Width n) (hk : k ≤ groupBytes n) :
    symCount n k ≤ groupSyms n := by
  obtain ⟨hbytes, hsyms⟩ := groupBits_eq h
  have hn : 0 < n := by omega
  have hle : 8 * k ≤ n * groupSyms n := by omega
  rw [symCount, ceilDiv, ← Nat.lt_add_one_iff, Nat.div_lt_iff_lt_mul hn, Nat.mul_comm _ n,
    Nat.mul_add_one n]
  omega

/-! ## Pack -/

theorem zeroPad_length {size : Nat} {g : List Byte} (h : g.length ≤ size) :
    (zeroPad size g).length = size := by
  simp [zeroPad, h]

theorem zeroPad_lt (size : Nat) (g : List Byte) : ∀ d ∈ zeroPad size g, d < 2 ^ 8 := by
  intro d hd
  obtain hd | hd := List.mem_append.mp hd
  · obtain ⟨x, -, rfl⟩ := List.mem_map.mp hd
    exact x.isLt
  · rw [List.eq_of_mem_replicate hd]
    decide

/-- `full` is the number of the group cut into l/n parts. -/
theorem packFull_eq_parts {n : Nat} (h : Width n) (p : List Nat) :
    packFull n p = parts n (groupSyms n) (positional (2 ^ 8) p) := by
  obtain ⟨-, hsyms⟩ := groupBits_eq h
  unfold packFull parts pow2
  refine List.map_congr_left fun j _ => ?_
  rw [Nat.and_two_pow_sub_one_eq_mod, hsyms, ← Nat.mul_sub, Nat.sub_sub, Nat.add_comm 1]

/-- `full` spells the bits of the zero-padded group. -/
theorem flatMap_bits_packFull {n : Nat} (h : Width n) {p : List Nat}
    (hlen : p.length = groupBytes n) (hp : ∀ b ∈ p, b < 2 ^ 8) :
    (packFull n p).flatMap (bits n) = p.flatMap (bits 8) := by
  obtain ⟨hbytes, hsyms⟩ := groupBits_eq h
  rw [packFull_eq_parts h, flatMap_bits_parts, ← hsyms, hbytes, ← hlen, bits_positional hp]

/-- The cells that `pack` answers for a group that is not too long. -/
def packCells (n : Nat) (g : List Byte) : List Byte :=
  ((packFull n (zeroPad (groupBytes n) g)).take (symCount n g.length)).map (BitVec.ofNat 8)

section
variable {n : Nat} {g : List Byte} (h : Width n) (hg : g.length ≤ groupBytes n)

include hg in
theorem pack_eq_ok : pack n g = .ok (packCells n g) := if_neg (Nat.not_lt.mpr hg)

include h hg in
theorem packCells_length : (packCells n g).length = symCount n g.length := by
  simpa [packCells, packFull_eq_parts h] using symCount_le_groupSyms h hg

include h in
/-- `42_packer.md` R131. -/
theorem packCells_lt : ∀ y ∈ packCells n g, y.toNat < 2 ^ n := by
  intro y hy
  obtain ⟨v, hv, rfl⟩ := List.mem_map.mp hy
  rw [packFull_eq_parts h] at hv
  exact (Nat.mod_le v _).trans_lt (parts_lt v (List.mem_of_mem_take hv))

include h hg in
/-- The words of `42_packer.md` R127: the bits of the group, then zero bits. -/
theorem bitString_packCells : bitString n (packCells n g) = bitString 8 g ++
    List.replicate (n * symCount n g.length - 8 * g.length) false := by
  obtain ⟨hbytes, hsyms⟩ := groupBits_eq h
  have hroom : 8 * g.length ≤ n * symCount n g.length := le_mul_symCount h _
  have hfits : n * symCount n g.length ≤ 8 * groupBytes n := by
    rw [← hbytes, hsyms]
    exact Nat.mul_le_mul_left n (symCount_le_groupSyms h hg)
  have hmin : min (n * symCount n g.length - 8 * g.length) (8 * (groupBytes n - g.length)) =
      n * symCount n g.length - 8 * g.length := by omega
  rw [packCells, bitString_map_ofNat (by omega), flatMap_bits_take,
    flatMap_bits_packFull h (zeroPad_length hg) (zeroPad_lt _ g), flatMap_bits_zeroPad,
    List.take_append, bitString_length, List.take_of_length_le (by simpa using hroom),
    List.take_replicate, hmin]

end

/-! ## PACK -/

theorem decodeWord_pack (a : Alphabet) :
    decodeWord (BitVec.ofNat 8 (0x10 + a.id.toNat)) = .ok (.pack a) := by
  cases a <;> decide

/-- An error that ILEN alone decides is reported whatever the cells hold (log entry 5). -/
theorem completes_of_lengthError {i : Instr} {w : Byte} {s : State} {k : ErrorKind}
    (hi : takesInput i = true) (hw : decodeWord w = .ok i) (hcap : s.ilen.toNat ≤ s.mcap)
    (hk : lengthErrorOf i s.mcap s.ilen.toNat = some k) : Completes i s w k.code [] :=
  ⟨_, (exec_of_decodeWord hi hw).trans (runOnInput_lengthError hcap hk), fail_ends k s w⟩

/-- Settles O22: PACK ends as `pack` does, whose symbols are the parts of the group's bit string. -/
theorem packRegroupsOneByteGroup : Obligations.PackRegroupsOneByteGroup := by
  unfold Obligations.PackRegroupsOneByteGroup
  refine ⟨decodeWord_pack, fun w hlo hhi => (illegal_iff w).mpr (by omega), by decide, fun a s =>
    ⟨completes_of_over rfl (decodeWord_pack a), fun hcap hover => ?_, fun xs hin hg => ?_⟩⟩
  · exact completes_of_lengthError rfl (decodeWord_pack a) hcap (groupSizeError_over hover)
  · have hwidth := symbolBits_width a
    have hlen := packCells_length hwidth hg
    have hfits : (packCells (symbolBits a) xs).length ≤ s.mcap := by
      rw [hlen]
      exact (symCount_le_groupSyms hwidth hg).trans ((groupSyms_le hwidth).trans s.mcap_bounds.1)
    refine ⟨packCells (symbolBits a) xs, ?_, hlen, packCells_lt hwidth, ?_⟩
    · exact completes_of_ok rfl (decodeWord_pack a) hin (groupSizeError_fits hg) (pack_eq_ok hg)
        hfits
    · rw [hlen]
      exact bitString_packCells hwidth hg

end Sys2Proof.Machine
end

section
/-! SUPPORT. The Padder (`44_padder.md`): an interrupted padding is an error of PadStrip, and PADS ends
as it says. -/

namespace Sys2Proof.Machine

open Sys2Proof.Claims

/-- What PadStrip inspects begins at the first pad character. -/
theorem dropWhile_bne_padChar {u : List Byte} (h : padChar ∉ u) (v : List Byte) :
    (u ++ padChar :: v).dropWhile (· != padChar) = padChar :: v := by
  have hu : ∀ c ∈ u, (c != padChar) = true := fun c hc => bne_iff_ne.mpr fun he => h (he ▸ hc)
  rw [List.dropWhile_append_of_pos hu, List.dropWhile_cons_of_neg (by simp)]

/-- A character after the first pad character is reported (`44_padder.md` R159). -/
theorem padStrip_of_interrupted {t : List Byte} (h : Interrupted t) :
    padStrip t = .error .notCanonicalInput := by
  obtain ⟨u, v, rfl, hu, c, hc, hne⟩ := h
  have hfound : (padChar :: v).any (· != padChar) = true :=
    List.any_eq_true.mpr ⟨c, List.mem_cons_of_mem padChar hc, bne_iff_ne.mpr hne⟩
  exact if_pos ((dropWhile_bne_padChar hu v).symm ▸ hfound)

theorem decodeWord_pads (a : Alphabet) :
    decodeWord (BitVec.ofNat 8 (0x60 + a.id.toNat)) = .ok (.pads a) := by
  cases a <;> decide

/-- Settles O27: PADS ends as PadStrip does, on an interrupted padding and on an uninterrupted one. -/
theorem padsStripsPadCharacters : Obligations.PadsStripsPadCharacters := by
  unfold Obligations.PadsStripsPadCharacters
  refine ⟨decodeWord_pads, fun w hlo hhi => (illegal_iff w).mpr (by omega), fun a s =>
    ⟨completes_of_over rfl (decodeWord_pads a), fun xs hin hint => ?_, fun u r hin hpad => ?_⟩⟩
  · exact completes_of_error rfl (decodeWord_pads a) hin rfl (padStrip_of_interrupted hint)
  · have ⟨_, hcap, _⟩ := hin
    have hfits : u.length ≤ s.mcap := (List.sublist_append_left u _).length_le.trans hcap
    exact completes_of_ok rfl (decodeWord_pads a) hin rfl (padStrip_append_replicate hpad r) hfits

end Sys2Proof.Machine
end

section
/-! SUPPORT. Chunking (`45_codec.md` R171): an induction that removes one group at a time, and by it the
contents, the number and the sizes of the chunks. -/

namespace Sys2Proof.Machine

/-- Induction on a sequence by its groups: the first g elements go, the rest stays. -/
theorem drop_induction {g : Nat} (hg : 1 ≤ g) {motive : List Byte → Prop} (nil : motive [])
    (cons : ∀ xs, xs ≠ [] → motive (xs.drop g) → motive xs) (xs : List Byte) : motive xs := by
  by_cases h : xs = []
  · exact h ▸ nil
  · exact cons xs h (drop_induction hg nil cons (xs.drop g))
termination_by xs.length
decreasing_by
  have := List.length_pos_iff.mpr h
  simp only [List.length_drop]
  omega

section
variable {g : Nat} (hg : 1 ≤ g)
include hg

theorem chunks_eq_nil_iff {xs : List Byte} : chunks g xs = [] ↔ xs = [] := by
  constructor
  · intro h
    by_contra hne
    simp [chunks_cons hg hne] at h
  · rintro rfl
    exact chunks_nil g

theorem flatten_chunks (xs : List Byte) : (chunks g xs).flatten = xs := by
  induction xs using drop_induction hg with
  | nil => rfl
  | cons xs hne ih => rw [chunks_cons hg hne, List.flatten_cons, ih, List.take_append_drop]

/-- Removing one group removes one from the quotient, also when the group is short. -/
theorem ceilDiv_eq_sub_add_one {k : Nat} (hk : 1 ≤ k) : ceilDiv k g = ceilDiv (k - g) g + 1 := by
  have hsplit : ceilDiv k g = (k - 1) / g + 1 := by
    rw [ceilDiv, show k + g - 1 = k - 1 + g by omega, Nat.add_div_right _ hg]
  rw [hsplit, ceilDiv]
  rcases Nat.le_total g k with hle | hle
  · rw [Nat.sub_add_cancel hle]
  · rw [Nat.sub_eq_zero_of_le hle, Nat.div_eq_of_lt (by omega), Nat.div_eq_of_lt (by omega)]

theorem length_chunks (xs : List Byte) : (chunks g xs).length = ceilDiv xs.length g := by
  induction xs using drop_induction hg with
  | nil => simp [ceilDiv, Nat.div_eq_of_lt (Nat.sub_lt hg Nat.one_pos)]
  | cons xs hne ih =>
    rw [chunks_cons hg hne, List.length_cons, ih, List.length_drop,
      ← ceilDiv_eq_sub_add_one hg (List.length_pos_iff.mpr hne)]

/-- A group with another one after it is full. -/
theorem length_of_mem_dropLast_chunks (xs : List Byte) :
    ∀ c ∈ (chunks g xs).dropLast, c.length = g := by
  induction xs using drop_induction hg with
  | nil => simp
  | cons xs hne ih =>
    rw [chunks_cons hg hne]
    by_cases hrest : xs.drop g = []
    · simp [hrest]
    · have hlen : g < xs.length := not_le.mp (mt List.drop_eq_nil_iff.mpr hrest)
      rw [List.dropLast_cons_of_ne_nil (mt (chunks_eq_nil_iff hg).mp hrest)]
      rintro c (_ | ⟨_, hc⟩)
      · simp [hlen.le]
      · exact ih c hc

/-- Every group, so also the last, has between 1 and g elements. -/
theorem length_of_mem_chunks (xs : List Byte) : ∀ c ∈ chunks g xs, 1 ≤ c.length ∧ c.length ≤ g := by
  induction xs using drop_induction hg with
  | nil => simp
  | cons xs hne ih =>
    rw [chunks_cons hg hne]
    rintro c (_ | ⟨_, hc⟩)
    · have := List.length_pos_iff.mpr hne
      simp only [List.length_take]
      omega
    · exact ih c hc

end

/-- Settles O47: each part is its fact about chunks, by induction on the groups. -/
theorem chunksCutTheSequence : Obligations.ChunksCutTheSequence := by
  unfold Obligations.ChunksCutTheSequence
  intro g xs hg
  exact ⟨flatten_chunks hg xs, length_chunks hg xs, length_of_mem_dropLast_chunks hg xs,
    fun c hc => length_of_mem_chunks hg xs c (List.mem_of_getLast? hc), chunks_nil g⟩

end Sys2Proof.Machine
end

section
/-! SUPPORT. The housekeeping commands NOP and XFER (`46_system.md`): their words, that a good state has a
result to transfer, and what the transfer leaves in IBUF. -/

namespace Sys2Proof.Machine

open Sys2Proof.Claims

theorem decodeWord_nop : decodeWord 0x00 = .ok .nop := by decide

theorem decodeWord_xfer : decodeWord 0xA0 = .ok .xfer := by decide

/-- Settles O19: NOP is its own word and a success on the state as it was. -/
theorem nopOnlyClearsTheCode : Obligations.NopOnlyClearsTheCode := by
  unfold Obligations.NopOnlyClearsTheCode
  refine ⟨fun s => ?_, decodeWord_nop, fun w hlo hhi => (illegal_iff w).mpr (by omega),
    fun _ _ _ => hostEvent_keeps_err⟩
  rw [exec_nop, encodeWord_of_decodeWord decodeWord_nop]
  rfl

/-- In a good state OUT is specified and fits in IBUF (`10_state.md` R25, `60_exceptions.md` R205). -/
theorem State.exists_readOut_of_wf {s : State} (h : s.wf) :
    ∃ xs, s.readOut = some xs ∧ xs.length ≤ s.mcap := by
  obtain ⟨-, -, -, hcells, hcap⟩ := h
  cases ho : s.readOut with
  | none =>
    obtain ⟨j, hj, hnone⟩ := Memory.readSeq_eq_none.mp ho
    obtain ⟨v, hv⟩ := Memory.read_of_map_fst (hcells ▸ List.mem_range.mpr hj)
    simp [hv] at hnone
  | some xs =>
    obtain ⟨hlen, -⟩ := State.readOut_eq_some.mp ho
    exact ⟨xs, rfl, hlen ▸ hcap⟩

/-- Settles O20: a good state has a result to transfer, and the copy puts its elements below OLEN and
leaves the cells from OLEN on. -/
theorem xferCopiesTheResult : Obligations.XferCopiesTheResult := by
  unfold Obligations.XferCopiesTheResult
  refine ⟨fun s hwf => ?_, decodeWord_xfer, fun w hlo hhi => (illegal_iff w).mpr (by omega)⟩
  obtain ⟨xs, ho, hcap⟩ := State.exists_readOut_of_wf hwf
  obtain ⟨hlen, hout⟩ := State.readOut_eq_some.mp ho
  refine ⟨_, exec_xfer_of_readOut ho, by simp [encodeWord_of_decodeWord decodeWord_xfer], rfl, rfl,
    fun i hi => ?_, fun i hi => ?_, by simp⟩
  · have hcopied := State.read_copied (s := s.storeCmd (encodeWord .xfer)) hcap (hlen ▸ hi)
    exact ⟨hcopied.trans (hout i hi).symm, by simp [hout i hi, hlen, hi]⟩
  · exact State.read_writeIbufFrom_other (s.storeCmd (encodeWord .xfer)) 0 xs (.inr (by omega))

end Sys2Proof.Machine
end

section
/-! SUPPORT. Failing commands (`60_exceptions.md`): what a failure leaves, and which commands can fail on
an input beyond the capacity. -/

namespace Sys2Proof.Machine

open Sys2Proof.Claims

/-- Settles O30: of the two ends of a word only `fail` gives a code other than 0, and it leaves no
result. -/
theorem failingCommandLeavesNoResult : Obligations.FailingCommandLeavesNoResult := by
  unfold Obligations.FailingCommandLeavesNoResult
  intro w s t h herr
  obtain ⟨k, rfl⟩ | ⟨u, rfl, -⟩ := hostWriteCmd_cases h
  · exact fail_ends k s w
  · exact absurd (succeed_err u) herr

/-- NOP, GEOM and XFER only succeed. -/
theorem exec_err_of_takesInput_eq_false {i : Instr} {s t : State} (hi : takesInput i = false)
    (h : exec i s = .next t) : t.err = 0 := by
  obtain rfl | ⟨a, rfl⟩ | rfl := takesInput_eq_false hi
  · cases h; rfl
  · cases h; rfl
  · obtain ⟨xs, -, rfl⟩ := exec_xfer_eq_next h
    rfl

/-- Settles O31: the template tests ILEN before it reads a cell, the three commands without input always
succeed, and ILEN is a 16-bit number. -/
theorem inputBeyondCapacityIsCode7 : Obligations.InputBeyondCapacityIsCode7 := by
  unfold Obligations.InputBeyondCapacityIsCode7
  refine ⟨fun i s hi hover => ?_, fun _ _ _ => exec_err_of_takesInput_eq_false, fun s hcap => ?_⟩
  · exact ⟨_, (exec_takesInput hi s).trans (runOnInput_over hover),
      fail_ends .capacityExceeded s (encodeWord i)⟩
  · have hilen := s.ilen.isLt
    omega

end Sys2Proof.Machine
end

section
/-! SUPPORT. Decoding and encoding of the command word (`30_encoding.md` R70 to R77): the fields of
a command come back from its word, and its word is the number its fields spell. -/

namespace Sys2Proof

/-- The facts about the word of each command, for every command. -/
theorem fieldsOfWord (i : Instr) : Laws.FieldsOfWord.Statement i := by
  cases i with
  | nop => exact Laws.FieldsOfWord.nop
  | pack a => exact Laws.FieldsOfWord.pack a
  | unpack a => exact Laws.FieldsOfWord.unpack a
  | v2c a => exact Laws.FieldsOfWord.v2c a
  | c2v f a => exact Laws.FieldsOfWord.c2v f a
  | pada f a => exact Laws.FieldsOfWord.pada f a
  | pads a => exact Laws.FieldsOfWord.pads a
  | encode f a => exact Laws.FieldsOfWord.encode f a
  | decode a => exact Laws.FieldsOfWord.decode a
  | geom a => exact Laws.FieldsOfWord.geom a
  | xfer => exact Laws.FieldsOfWord.xfer

/-- The A field of an alphabet selects it (`30_encoding.md` R72). -/
theorem Alphabet.ofId_id (a : Alphabet) : Alphabet.ofId a.id = some a := by cases a <;> rfl

/-- The fields of a command decode to it: they pass the checks, and OP, F and A name the command. -/
theorem decodeFields_fields (i : Instr) : decodeFields i.fields = .ok i := by
  obtain ⟨hlegal, -⟩ := fieldsOfWord i
  rw [decodeFields, hlegal]
  cases i with
  | nop => rfl
  | xfer => rfl
  | pack a | unpack a | v2c a | c2v f a | pada f a | pads a | encode f a | decode a | geom a =>
    simp [Instr.fields, Alphabet.ofId_id, Instr.ofOp]

theorem decodeWord_encodeWord (i : Instr) : decodeWord (encodeWord i) = .ok i := by
  obtain ⟨-, hfields⟩ := fieldsOfWord i
  rw [decodeWord, hfields, decodeFields_fields]

/-- The three fields fill the 8 bits of a word, so their sum does not wrap. -/
theorem Fields.toWord_toNat (x : Fields) :
    x.toWord.toNat = x.op.toNat * 16 + x.f.toNat * 8 + x.a.toNat := by
  have hop := x.op.isLt
  have hf := x.f.toNat_le
  have ha := x.a.isLt
  rw [Fields.toWord, BitVec.toNat_ofNat, Nat.mod_eq_of_lt (by omega)]

theorem Instr.wellFormed_eq_true (i : Instr) : i.wellFormed = true := by
  obtain ⟨hlegal, -⟩ := fieldsOfWord i
  rw [Instr.wellFormed, Fields.wellFormed, hlegal, Option.isNone_none]

/-- Decoding the word of a command leaves the bytes after it. -/
theorem decode_encode_append (i : Instr) (rest : List Byte) :
    decode (encode i ++ rest) = .ok (i, rest) := by
  rw [encode, List.singleton_append, decode, decodeWord_encodeWord]

/-- Settles O2: the fields of a command survive its word, and no two commands share a word. -/
theorem decodeAndEncodeAgree : Obligations.DecodeAndEncodeAgree := by
  unfold Obligations.DecodeAndEncodeAgree
  exact ⟨decode_encode_append, fun _ _ => Machine.encodeWord_of_decodeWord,
    fun i => ⟨i.wellFormed_eq_true, i.fields.toWord_toNat⟩⟩

/-- Settles O1: each of the words is the word of its command. -/
theorem specExampleWordsDecode : Obligations.SpecExampleWordsDecode := by
  unfold Obligations.SpecExampleWordsDecode
  exact ⟨decodeWord_encodeWord (.encode true .base64),
    decodeWord_encodeWord (.encode false .base64),
    decodeWord_encodeWord (.decode .base32), decodeWord_encodeWord (.pack .octal),
    decodeWord_encodeWord (.c2v true .base64url), decodeWord_encodeWord .nop,
    decodeWord_encodeWord .xfer, decodeWord_encodeWord (.unpack .base64),
    decodeWord_encodeWord (.v2c .base64), decodeWord_encodeWord (.pada true .base32),
    decodeWord_encodeWord (.pads .base64), decodeWord_encodeWord (.geom .base32)⟩

end Sys2Proof
end

section
/-! SUPPORT. What every step keeps: the configuration and the host's lists, and the good state. Each
is shown of the two ends of a command, then of commands, of the host's events and of the step. -/

namespace Sys2Proof.Machine

open Sys2Proof.Claims

/-! ## Frames of the commands -/

/-- The touch set of every command but XFER (`20_memory.md` R56). -/
theorem exec_frame_of_ne_xfer {i : Instr} {s t : State} (hx : i ≠ .xfer) (h : exec i s = .next t) :
    t.cmd = encodeWord i ∧ t.ilen = s.ilen ∧ t.ibuf = s.ibuf ∧ t.cfg = s.cfg ∧
      t.pending = s.pending ∧ t.answers = s.answers := by
  cases hi : takesInput i with
  | true =>
    rw [exec_takesInput hi] at h
    obtain ⟨hcfg, hcmd, hilen, hibuf, hpending, hanswers⟩ := runOnInput_frame h
    exact ⟨hcmd, hilen, hibuf, hcfg, hpending, hanswers⟩
  | false =>
    obtain rfl | ⟨a, rfl⟩ | rfl := takesInput_eq_false hi
    · cases h; simp
    · cases h; simp
    · exact absurd rfl hx

/-- The touch set of XFER (`20_memory.md` R56): of IBUF the cells below OLEN. -/
theorem exec_xfer_frame {s t : State} (h : exec .xfer s = .next t) :
    t.cmd = encodeWord .xfer ∧ t.olen = s.olen ∧ t.obuf = s.obuf ∧
      (∀ j, s.olen.toNat ≤ j → t.ibuf.read j = s.ibuf.read j) ∧
      t.cfg = s.cfg ∧ t.pending = s.pending ∧ t.answers = s.answers := by
  obtain ⟨xs, ho, rfl⟩ := exec_xfer_eq_next h
  obtain ⟨hlen, -⟩ := State.readOut_eq_some.mp ho
  exact ⟨by simp, by simp, by simp,
    fun j hj => State.read_writeIbufFrom_other (s.storeCmd _) 0 xs (.inr (by omega)), by simp⟩

/-- No command touches the configuration or the host's lists. -/
theorem exec_keeps_host {i : Instr} {s t : State} (h : exec i s = .next t) :
    t.cfg = s.cfg ∧ t.pending = s.pending ∧ t.answers = s.answers := by
  by_cases hx : i = .xfer
  · subst hx
    obtain ⟨-, -, -, -, hhost⟩ := exec_xfer_frame h
    exact hhost
  · obtain ⟨-, -, -, hhost⟩ := exec_frame_of_ne_xfer hx h
    exact hhost

/-- Settles O34: the frame of the template, of NOP and GEOM, and of XFER's copy. -/
theorem commandsTouchOnlyTheirOwnState : Obligations.CommandsTouchOnlyTheirOwnState := by
  unfold Obligations.CommandsTouchOnlyTheirOwnState
  refine ⟨fun i s t h hx => ?_, fun s t h => ?_, fun s t h => ?_⟩
  · obtain ⟨hcmd, hilen, hibuf, hhost⟩ := exec_frame_of_ne_xfer hx h
    exact ⟨hcmd, hilen, fun j => by rw [hibuf], hhost⟩
  · cases h
    exact ⟨rfl, fun _ => rfl⟩
  · obtain ⟨hcmd, holen, hobuf, hibuf, hhost⟩ := exec_xfer_frame h
    exact ⟨hcmd, holen, fun j => by rw [hobuf], hibuf, hhost⟩

/-! ## The configuration and the coming events -/

/-- A cell read that is answered adds an answer and does nothing else. -/
theorem answerCell_eq_next {i : Nat} {v : Option Byte} {s t : State}
    (h : answerCell i v s = .next t) : ∃ b : Byte, t = s.answer (b.setWidth 16) := by
  obtain ⟨-, ha⟩ | ⟨-, -, ha⟩ | ⟨b, -, -, ha⟩ := answerCell_cases i v s <;> rw [ha] at h <;> cases h
  exact ⟨b, rfl⟩

theorem hostWriteCmd_keeps_host {w : Byte} {s t : State} (h : hostWriteCmd w s = .next t) :
    t.cfg = s.cfg ∧ t.pending = s.pending ∧ t.answers = s.answers := by
  cases hw : decodeWord w with
  | error r => rw [hostWriteCmd_illegal hw] at h; cases h; simp
  | ok i => rw [hostWriteCmd_legal hw] at h; exact exec_keeps_host h

theorem hostEvent_keeps_cfg_pending {e : HostEvent} {s t : State} (h : hostEvent e s = .next t) :
    t.cfg = s.cfg ∧ t.pending = s.pending := by
  cases e with
  | writeCmd w =>
    obtain ⟨hcfg, hpending, -⟩ := hostWriteCmd_keeps_host h
    exact ⟨hcfg, hpending⟩
  | readIbuf i | readObuf i => obtain ⟨b, rfl⟩ := answerCell_eq_next h; simp
  | writeIbuf i v => cases h; simp
  | writeStatus v | writeIlen v | writeOlen v | writeAbsent k v | readReg r | writeObuf i v
  | reset => cases h; exact ⟨rfl, rfl⟩

/-- Settles O17: a step takes the event it performs, and the event itself keeps both. -/
theorem configurationNeverChanges : Obligations.ConfigurationNeverChanges := by
  unfold Obligations.ConfigurationNeverChanges
  intro s t h
  obtain ⟨hnil, rfl⟩ | ⟨e, rest, hcons, he⟩ := step_cases h
  · exact ⟨rfl, by rw [hnil, List.tail_nil]⟩
  · rw [hcons, List.tail_cons]
    exact hostEvent_keeps_cfg_pending he

/-! ## The good state -/

section
variable {s : State} (h : s.wf)
include h

/-- A failure leaves no result, and IBUF as it was. -/
theorem wf_fail (k : ErrorKind) (w : Byte) : (fail k (s.storeCmd w)).wf := by
  obtain ⟨hin, hincap, -⟩ := h
  exact ⟨hin, hincap, List.Pairwise.nil, rfl, Nat.zero_le _⟩

/-- A success with a result that fits leaves exactly that result, and IBUF as it was. -/
theorem wf_succeed_setOut {xs : List Byte} (w : Byte) (hcap : xs.length ≤ s.mcap) :
    (succeed ((s.storeCmd w).setOut xs)).wf := by
  obtain ⟨hin, hincap, -⟩ := h
  have holen : (BitVec.ofNat 16 xs.length).toNat = xs.length :=
    olen_ofNat (hcap.trans s.mcap_bounds.2)
  refine ⟨hin, hincap, Memory.wf_ofSeq xs, ?_, ?_⟩
  · simp [holen]
  · simpa [holen] using hcap

theorem wf_finish (r : Seq) (w : Byte) : (finish r (s.storeCmd w)).wf := by
  obtain ⟨k, hr, -⟩ | ⟨xs, -, hcap, hr⟩ := finish_cases r (s.storeCmd w) <;> rw [hr]
  · exact wf_fail h k w
  · exact wf_succeed_setOut h w hcap

theorem exec_keeps_wf {i : Instr} {t : State} (he : exec i s = .next t) : t.wf := by
  cases hi : takesInput i with
  | true =>
    rw [exec_takesInput hi] at he
    obtain ⟨-, rfl⟩ | ⟨-, k, -, rfl⟩ | ⟨-, -, xs, -, rfl⟩ := runOnInput_cases he
    · exact wf_fail h _ _
    · exact wf_fail h k _
    · exact wf_finish h _ _
  | false =>
    obtain rfl | ⟨a, rfl⟩ | rfl := takesInput_eq_false hi
    · cases he; exact h
    · cases he
      exact wf_succeed_setOut h _ (Nat.le_trans (by simp [geom]) s.mcap_bounds.1)
    · obtain ⟨xs, -, rfl⟩ := exec_xfer_eq_next he
      obtain ⟨hin, hincap, hout⟩ := h
      obtain ⟨hin', hincap'⟩ :=
        State.wf_writeIbufFrom (s := s.storeCmd (encodeWord .xfer)) 0 xs hin hincap
      exact ⟨hin', by simpa using hincap', by simpa using hout⟩

theorem hostWriteCmd_keeps_wf {w : Byte} {t : State} (he : hostWriteCmd w s = .next t) : t.wf := by
  cases hw : decodeWord w with
  | error r => rw [hostWriteCmd_illegal hw] at he; cases he; exact wf_fail h _ w
  | ok i => rw [hostWriteCmd_legal hw] at he; exact exec_keeps_wf h he

theorem hostEvent_keeps_wf {e : HostEvent} {t : State} (he : hostEvent e s = .next t) : t.wf := by
  cases e with
  | writeCmd w => exact hostWriteCmd_keeps_wf h he
  | readIbuf i | readObuf i => obtain ⟨b, rfl⟩ := answerCell_eq_next he; exact h
  | writeIbuf i v =>
    cases he
    obtain ⟨hin, hincap, hout⟩ := h
    obtain ⟨hin', hincap'⟩ := State.wf_writeIbufCell i v hin hincap
    exact ⟨hin', by simpa using hincap', by simpa using hout⟩
  | reset => cases he; simp [State.wf]
  | writeStatus v | writeIlen v | writeOlen v | writeAbsent k v | readReg r | writeObuf i v =>
    cases he; exact h

end

/-- Settles O15: every event keeps the state good, by its kind; a command by its two ends. -/
theorem everyStepKeepsTheStateGood : Obligations.EveryStepKeepsTheStateGood := by
  unfold Obligations.EveryStepKeepsTheStateGood
  intro s t hwf h
  obtain ⟨-, rfl⟩ | ⟨e, rest, -, he⟩ := step_cases h
  · exact hwf
  · exact hostEvent_keeps_wf (s := s.withPending rest) hwf he

/-- Settles O16: both buffers are empty at reset. -/
theorem resetStateIsGood : Obligations.ResetStateIsGood := by
  unfold Obligations.ResetStateIsGood
  exact ⟨List.Pairwise.nil, by simp [State.reset], List.Pairwise.nil, rfl, Nat.zero_le _⟩

/-! ## Steps that go on -/

/-- A command goes on from a good state, where its input, if it takes one, is in place. -/
theorem exec_goes_on {i : Instr} {s : State} (hwf : s.wf)
    (hready : takesInput i = true → s.inputReady = true) : ∃ t, exec i s = .next t := by
  cases hi : takesInput i with
  | true =>
    rw [exec_takesInput hi]
    obtain hgo | ⟨-, -, -, hnone⟩ := runOnInput_stops (w := encodeWord i)
      (le := lengthErrorOf i s.mcap) (fn := functionOf i) (s := s)
    · exact hgo
    · simp [State.inputReady, hnone] at hready
      exact absurd hi (by simpa using hready)
  | false =>
    obtain rfl | ⟨a, rfl⟩ | rfl := takesInput_eq_false hi
    · exact ⟨_, exec_nop s⟩
    · exact ⟨_, exec_geom a s⟩
    · obtain ⟨xs, ho, -⟩ := State.exists_readOut_of_wf hwf
      exact ⟨_, exec_xfer_of_readOut ho⟩

/-- A read of an existing cell that has a value is answered with it. -/
theorem answerCell_of_some {i : Nat} {b : Byte} {s : State} (hi : i < s.mcap) :
    answerCell i (some b) s = .next (s.answer (b.setWidth 16)) := by
  rw [answerCell, if_neg (Nat.not_le.mpr hi)]

/-- In a good state every cell below OLEN exists and has a value. -/
theorem State.exists_obuf_read_of_wf {s : State} (h : s.wf) {i : Nat} (hi : i < s.olen.toNat) :
    i < s.mcap ∧ ∃ b, s.obuf.read i = some b := by
  obtain ⟨-, -, -, hcells, hcap⟩ := h
  exact ⟨hi.trans_le hcap, Memory.read_of_map_fst (hcells ▸ List.mem_range.mpr hi)⟩

theorem hostEvent_goes_on {e : HostEvent} {s : State} (hwf : s.wf) (hduty : dutyMet e s = true) :
    ∃ t, hostEvent e s = .next t := by
  cases e with
  | writeCmd w =>
    cases hw : decodeWord w with
    | error r => exact ⟨_, hostWriteCmd_illegal hw s⟩
    | ok i =>
      obtain ⟨t, ht⟩ := exec_goes_on (i := i) hwf fun hi => by simpa [dutyMet, hw, hi] using hduty
      exact ⟨t, (hostWriteCmd_legal hw s).trans ht⟩
  | readIbuf i =>
    obtain ⟨hi, hsome⟩ : i < s.mcap ∧ (s.ibuf.read i).isSome := by simpa [dutyMet] using hduty
    obtain ⟨b, hb⟩ := Option.isSome_iff_exists.mp hsome
    exact ⟨_, by rw [hostEvent, hostReadIbuf, hb, answerCell_of_some hi]⟩
  | readObuf i =>
    have hi : i < s.olen.toNat := by simpa [dutyMet] using hduty
    obtain ⟨hcap, b, hb⟩ := State.exists_obuf_read_of_wf hwf hi
    exact ⟨_, by rw [hostEvent, hostReadObuf, if_pos hi, hb, answerCell_of_some hcap]⟩
  | writeStatus v | writeIlen v | writeOlen v | writeAbsent k v | readReg r | writeIbuf i v
  | writeObuf i v | reset => exact ⟨_, rfl⟩

/-- Settles O18: the duties rule out every stop that a good state leaves open. -/
theorem dutyMeansTheStepGoesOn : Obligations.DutyMeansTheStepGoesOn := by
  unfold Obligations.DutyMeansTheStepGoesOn
  intro s e rest hwf hp hduty
  rw [State.goesOn, step_of_pending_cons hp]
  exact hostEvent_goes_on (s := s.withPending rest) hwf hduty

end Sys2Proof.Machine
end

section
/-! SUPPORT. The host's accesses (`10_state.md` R26 to R30) and reset, one step at a time: which
event a step performs, and what a read of a register or of a cell answers. -/

namespace Sys2Proof.Machine

open Sys2Proof.Claims

/-! ## The event of a step -/

/-- Settles O4: the next event is the first of the list. -/
theorem stepPerformsTheNextEvent : Obligations.StepPerformsTheNextEvent := by
  unfold Obligations.StepPerformsTheNextEvent
  exact ⟨fun _ _ _ => step_of_pending_cons, fun _ => step_of_pending_nil⟩

/-- The table word of 8 bits is the one byte of its low 8 bits. -/
theorem decodeTableWord_eq_some {w : Nat} {i : Instr} (h : decodeTableWord 8 w = some i) :
    decodeWord (BitVec.ofNat 8 (w % 2 ^ 8)) = .ok i := by
  have hbytes : tableBytes 8 w = [BitVec.ofNat 8 (w % 2 ^ 8)] := rfl
  rw [decodeTableWord, hbytes, Sys2Proof.decode] at h
  cases hw : decodeWord (BitVec.ofNat 8 (w % 2 ^ 8)) with
  | error r => rw [hw] at h; cases h
  | ok j => rw [hw] at h; cases h; rfl

/-- Settles O5: the event that writes CMD is the command its word decodes to, also where
`withFetchWord` put it in front. -/
theorem stepRunsTheDecodedCommand : Obligations.StepRunsTheDecodedCommand := by
  unfold Obligations.StepRunsTheDecodedCommand
  refine ⟨fun s w rest i hp hw => ?_, fun s w i hw => ?_⟩
  · rw [step_of_pending_cons hp]
    exact hostWriteCmd_legal hw _
  · exact hostWriteCmd_legal (decodeTableWord_eq_some hw) s

/-! ## Reads of registers -/

/-- Settles O7: the value of each register, an 8-bit one as the same number in 16 bits. -/
theorem hostRegisterReads : Obligations.HostRegisterReads := by
  unfold Obligations.HostRegisterReads
  intro n s
  refine ⟨s.readRegister (Reg.ofNumber n), rfl, ?_⟩
  match n with
  | 0 => exact BitVec.toNat_setWidth_of_le (by decide)
  | 1 => exact (BitVec.toNat_setWidth_of_le (by decide)).trans s.status_toNat
  | 2 => rfl
  | 3 => rfl
  | k + 4 => simp [Reg.ofNumber, State.readRegister]

/-! ## Reads of cells -/

/-- An existing cell without a value is refused (`93_implementation_defined.md` U3, U4). -/
theorem answerCell_of_none {i : Nat} {s : State} (hi : i < s.mcap) :
    answerCell i none s = .refused .unspecifiedCell := by
  rw [answerCell, if_neg (Nat.not_le.mpr hi)]

/-- A read of a cell that does not exist faults (`93_implementation_defined.md` U5). -/
theorem answerCell_absent {i : Nat} {s : State} (hi : s.mcap ≤ i) (v : Option Byte) :
    answerCell i v s = .fault .noSuchCell :=
  if_pos hi

theorem hostEvent_readIbuf (i : Nat) (s : State) :
    hostEvent (.readIbuf i) s = answerCell i (s.ibuf.read i) s := rfl

theorem hostEvent_readObuf_below {i : Nat} {s : State} (hi : i < s.olen.toNat) :
    hostEvent (.readObuf i) s = answerCell i (s.obuf.read i) s := by
  rw [hostEvent, hostReadObuf, if_pos hi]

/-- A cell of index OLEN or above is unspecified, whatever OBUF lists (`10_state.md` R29). -/
theorem hostEvent_readObuf_above {i : Nat} {s : State} (hi : s.olen.toNat ≤ i) :
    hostEvent (.readObuf i) s = answerCell i none s := by
  rw [hostEvent, hostReadObuf, if_neg (Nat.not_lt.mpr hi)]

/-- Settles O10: the answer of a cell read, where the cell exists and has a value, and the two
stops. -/
theorem hostReadsCells : Obligations.HostReadsCells := by
  unfold Obligations.HostReadsCells
  refine ⟨fun s i b hi hb => ?_, fun s i hi hb => ?_, fun s i b hwf hi hb => ?_,
    fun s i hi hout => ?_, fun s i hi => ⟨answerCell_absent hi _, answerCell_absent hi _⟩⟩
  · rw [hostEvent_readIbuf, hb, answerCell_of_some hi]; rfl
  · rw [hostEvent_readIbuf, hb, answerCell_of_none hi]
  · obtain ⟨hcap, -⟩ := State.exists_obuf_read_of_wf hwf hi
    rw [hostEvent_readObuf_below hi, hb, answerCell_of_some hcap]; rfl
  · rw [hostEvent_readObuf_above hout, answerCell_of_none hi]

theorem State.read_writeIbufCell {s : State} {i : Nat} (hi : i < s.mcap) (v : Byte) (j : Nat) :
    (s.writeIbufCell i v).ibuf.read j = if j = i then some v else s.ibuf.read j := by
  rw [State.writeIbufCell_ibuf, if_pos hi, Memory.read_write]

theorem step_readIbuf {s : State} {j : Nat} {b : Byte} {rest : List HostEvent}
    (hp : s.pending = .readIbuf j :: rest) (hj : j < s.mcap) (hb : s.ibuf.read j = some b) :
    step s = .next ((s.withPending rest).answer (b.setWidth 16)) := by
  rw [step_of_pending_cons hp, hostEvent_readIbuf, State.withPending_ibuf, hb]
  exact answerCell_of_some hj

/-- Settles O11: the step of the write, then the step of the read, by read after write of a cell. -/
theorem readReturnsTheLastWrite : Obligations.ReadReturnsTheLastWrite := by
  unfold Obligations.ReadReturnsTheLastWrite
  intro s i j v b rest hp hi hj hb
  have hread : ((s.withPending (.readIbuf j :: rest)).writeIbufCell i v).ibuf.read j =
      some (if i = j then v else b) := by
    rw [State.read_writeIbufCell (s := s.withPending (.readIbuf j :: rest)) hi]
    by_cases hij : i = j
    · rw [if_pos hij.symm, if_pos hij]
    · rw [if_neg (Ne.symm hij), if_neg hij]
      exact hb hij
  exact ⟨_, _, step_of_pending_cons hp, step_readIbuf (by simp) (by simpa using hj) hread, rfl,
    by simp⟩

/-! ## Reset -/

/-- Settles O13: reset writes the registers and empties both buffers, whatever they held. -/
theorem resetEventInAnyState : Obligations.ResetEventInAnyState := by
  unfold Obligations.ResetEventInAnyState
  exact fun s => ⟨hostReset s, rfl, rfl, rfl, rfl, rfl, fun i =>
    ⟨Memory.read_nil i, Memory.read_nil i⟩⟩

end Sys2Proof.Machine
end

section
/-! SUPPORT. Bit strings determine their sequences (`20_memory.md` R52), and the length laws of a
group (`41_bitwidth.md` R114, R115). -/

namespace Sys2Proof.Machine

open Sys2Proof.Claims

/-! ## A bit string determines its sequence -/

theorem bits_getElem? {n i : Nat} (h : i < n) (x : Nat) :
    (bits n x)[n - 1 - i]? = some (x.testBit i) := by
  have hi : n - 1 - i < n := by omega
  have hback : n - 1 - (n - 1 - i) = i := by omega
  simp [bits, hi, hback]

/-- The n bits of a number below 2^n determine it. -/
theorem bits_inj {n x y : Nat} (hx : x < 2 ^ n) (hy : y < 2 ^ n) (h : bits n x = bits n y) :
    x = y := by
  refine Nat.eq_of_testBit_eq fun i => ?_
  by_cases hi : i < n
  · simpa [bits_getElem? hi] using congrArg (·[n - 1 - i]?) h
  · have hle : 2 ^ n ≤ 2 ^ i := Nat.pow_le_pow_right (by decide) (Nat.not_lt.mp hi)
    rw [Nat.testBit_lt_two_pow (hx.trans_le hle), Nat.testBit_lt_two_pow (hy.trans_le hle)]

theorem flatMap_bits_inj {n : Nat} (hn : 0 < n) {xs ys : List Nat} (hx : ∀ x ∈ xs, x < 2 ^ n)
    (hy : ∀ y ∈ ys, y < 2 ^ n) (h : xs.flatMap (bits n) = ys.flatMap (bits n)) : xs = ys := by
  have hlen : xs.length = ys.length := by
    simpa [List.length_flatMap, hn.ne'] using congrArg List.length h
  induction xs generalizing ys with
  | nil => exact (List.length_eq_zero_iff.mp hlen.symm).symm
  | cons x xs ih =>
    obtain _ | ⟨y, ys⟩ := ys
    · cases hlen
    · obtain ⟨hx, hxs⟩ := List.forall_mem_cons.mp hx
      obtain ⟨hy, hys⟩ := List.forall_mem_cons.mp hy
      obtain ⟨hhead, htail⟩ := List.append_inj h (by simp)
      rw [bits_inj hx hy hhead, ih hxs hys htail (Nat.succ.inj hlen)]

theorem bitString_inj {n : Nat} (hn : 0 < n) {xs ys : List Byte} (hx : ∀ x ∈ xs, x.toNat < 2 ^ n)
    (hy : ∀ y ∈ ys, y.toNat < 2 ^ n) (h : bitString n xs = bitString n ys) : xs = ys := by
  have hinj : Function.Injective (List.map (BitVec.toNat (w := 8))) :=
    List.map_injective_iff.mpr fun _ _ => BitVec.eq_of_toNat_eq
  refine hinj (flatMap_bits_inj hn (by simpa using hx) (by simpa using hy) ?_)
  rw [List.flatMap_map, List.flatMap_map]
  exact h

/-- Whole bytes need no bound. -/
theorem bitString_eight_inj {xs ys : List Byte} (h : bitString 8 xs = bitString 8 ys) : xs = ys :=
  bitString_inj (by decide) (fun x _ => x.isLt) (fun y _ => y.isLt) h

/-- A number below 2^n has a one bit exactly when it is not zero. -/
theorem true_mem_bits {n x : Nat} (hx : x < 2 ^ n) : true ∈ bits n x ↔ x ≠ 0 := by
  constructor
  · rintro htrue rfl
    simp at htrue
  · intro hne
    by_contra hno
    have hall : ∀ b ∈ bits n x, b = false := fun b hb => by
      cases b with
      | false => rfl
      | true => exact absurd hb hno
    have hzero : bits n x = bits n 0 := by
      rw [bits_zero]
      exact List.eq_replicate_iff.mpr ⟨bits_length n x, hall⟩
    exact hne (bits_inj hx (Nat.two_pow_pos n) hzero)

/-- Every element is n bits, so what is left of the elements is what is left of the bits. -/
theorem flatMap_bits_drop (n m : Nat) (ds : List Nat) :
    (ds.drop m).flatMap (bits n) = (ds.flatMap (bits n)).drop (n * m) := by
  have hsplit : (ds.take m).flatMap (bits n) ++ (ds.drop m).flatMap (bits n) =
      (ds.flatMap (bits n)).take (n * m) ++ (ds.flatMap (bits n)).drop (n * m) := by
    rw [← List.flatMap_append, List.take_append_drop, List.take_append_drop]
  rw [flatMap_bits_take] at hsplit
  exact List.append_cancel_left hsplit

@[simp] theorem bitString_append (n : Nat) (xs ys : List Byte) :
    bitString n (xs ++ ys) = bitString n xs ++ bitString n ys := List.flatMap_append

/-! ## The length laws of a group -/

section
variable {n : Nat} (h : Width n)
include h

/-- The symbols of k bytes determine k again (`41_bitwidth.md` R115). -/
theorem byteCount_symCount (k : Nat) : byteCount n (symCount n k) = k := by
  unfold byteCount symCount ceilDiv
  obtain rfl | rfl | rfl | rfl := h <;> omega

/-- The last symbol of k bytes holds at least one of their bits. -/
theorem mul_symCount_lt (k : Nat) : n * symCount n k < 8 * k + n := by
  unfold symCount ceilDiv
  obtain rfl | rfl | rfl | rfl := h <;> omega

/-- A full group of bytes is a full group of symbols. -/
theorem symCount_groupBytes : symCount n (groupBytes n) = groupSyms n := by
  obtain rfl | rfl | rfl | rfl := h <;> decide

/-- A full group of symbols is a full group of bytes, with no trailing bit. -/
theorem byteCount_groupSyms : byteCount n (groupSyms n) = groupBytes n := by
  rw [← symCount_groupBytes h, byteCount_symCount h]

theorem groupBytes_pos : 0 < groupBytes n := by
  obtain rfl | rfl | rfl | rfl := h <;> decide

/-- The bytes of a full group fit in a buffer of every capacity. -/
theorem groupBytes_le : groupBytes n ≤ 8 := by
  obtain rfl | rfl | rfl | rfl := h <;> decide

theorem groupSyms_pos : 0 < groupSyms n := by
  obtain rfl | rfl | rfl | rfl := h <;> decide

/-- l is the library's least common multiple of 8 and n (`41_bitwidth.md` R114). -/
theorem groupBits_eq_lcm : groupBits n = Nat.lcm 8 n := by
  obtain rfl | rfl | rfl | rfl := h <;> decide

end

/-- The whole bytes of m symbols have room in their bits. -/
theorem eight_mul_byteCount_le (n m : Nat) : 8 * byteCount n m ≤ n * m := by
  rw [Nat.mul_comm n]
  exact Nat.mul_div_le (m * n) 8

theorem byteCount_le_groupBytes {n m : Nat} (h : Width n) (hm : m ≤ groupSyms n) :
    byteCount n m ≤ groupBytes n :=
  byteCount_groupSyms h ▸ Nat.div_le_div_right (Nat.mul_le_mul_right n hm)

/-- Settles O39: the group length is the least common multiple, and the other laws are those of the
two roundings. -/
theorem groupGeometryAndLengthLaws : Obligations.GroupGeometryAndLengthLaws := by
  unfold Obligations.GroupGeometryAndLengthLaws
  intro n h
  obtain ⟨hbytes, hsyms⟩ := groupBits_eq h
  have hlcm := groupBits_eq_lcm h
  refine ⟨⟨⟨_, hbytes⟩, ⟨_, hsyms⟩, fun l hl h8 hn => ?_⟩, by omega, by rw [hsyms, Nat.mul_comm],
    symCount_groupBytes h, fun k => ⟨byteCount_symCount h k, le_mul_symCount h k,
      mul_symCount_lt h k, ?_⟩⟩
  · rw [hlcm]
    exact Nat.le_of_dvd hl (Nat.lcm_dvd h8 hn)
  · unfold trail byteCount
    omega

end Sys2Proof.Machine
end

section
/-! SUPPORT. The Unpacker (`43_unpacker.md`): what each of its checks refuses, what it answers
behind them, that it undoes the Packer, and how UNPACK ends. -/

namespace Sys2Proof.Machine

open Sys2Proof.Claims

/-! ## The group read as bytes -/

theorem zeroPad_lt_two_pow {n size : Nat} {g : List Byte} (hg : ∀ x ∈ g, x.toNat < 2 ^ n) :
    ∀ d ∈ zeroPad size g, d < 2 ^ n := by
  intro d hd
  obtain hd | hd := List.mem_append.mp hd
  · obtain ⟨x, hx, rfl⟩ := List.mem_map.mp hd
    exact hg x hx
  · rw [List.eq_of_mem_replicate hd]
    exact Nat.two_pow_pos n

/-- `bytes` is the number of the group cut into l/8 parts (`43_unpacker.md` R142). -/
theorem unpackFull_eq_parts (n : Nat) (q : List Nat) :
    unpackFull n q = parts 8 (groupBytes n) (positional (2 ^ n) q) := by
  unfold unpackFull parts
  exact List.map_congr_left fun i _ => Nat.and_two_pow_sub_one_eq_mod _ 8

/-- `bytes` spells the bits of the zero-padded group. -/
theorem flatMap_bits_unpackFull {n : Nat} (h : Width n) {q : List Nat}
    (hlen : q.length = groupSyms n) (hq : ∀ v ∈ q, v < 2 ^ n) :
    (unpackFull n q).flatMap (bits 8) = q.flatMap (bits n) := by
  obtain ⟨hbytes, hsyms⟩ := groupBits_eq h
  rw [unpackFull_eq_parts, flatMap_bits_parts, ← hbytes, hsyms, ← hlen, bits_positional hq]

/-- Some number of a list is not zero exactly when the list has a one bit. -/
theorem any_ne_zero_iff {n : Nat} {ds : List Nat} (h : ∀ d ∈ ds, d < 2 ^ n) :
    ds.any (· != 0) = true ↔ true ∈ ds.flatMap (bits n) := by
  rw [List.any_eq_true, List.mem_flatMap]
  exact exists_congr fun d => and_congr_right fun hd => by rw [true_mem_bits (h d hd), bne_iff_ne]

/-- The bytes that `unpack` answers for an accepted group. -/
def unpackCells (n : Nat) (g : List Byte) : List Byte :=
  ((unpackFull n (zeroPad (groupSyms n) g)).take (byteCount n g.length)).map (BitVec.ofNat 8)

/-- A one bit after the last whole byte of the symbols (`43_unpacker.md` R143). -/
abbrev Trailing (n : Nat) (g : List Byte) : Prop :=
  true ∈ (bitString n g).drop (8 * byteCount n g.length)

/-! ## The checks and the result -/

section
variable {n : Nat} {g : List Byte}

theorem any_pow2_le_iff :
    g.any (fun v => decide (pow2 n ≤ v.toNat)) = true ↔ ∃ x ∈ g, 2 ^ n ≤ x.toNat := by
  rw [List.any_eq_true]
  exact exists_congr fun x => and_congr_right fun _ => decide_eq_true_iff

theorem unpack_of_exists_ge (hg : g.length ≤ groupSyms n) (hge : ∃ x ∈ g, 2 ^ n ≤ x.toNat) :
    unpack n g = .error .invalidNTet := by
  rw [unpack, if_neg (Nat.not_lt.mpr hg), if_pos (any_pow2_le_iff.mpr hge)]

variable (h : Width n) (hg : g.length ≤ groupSyms n)

include h hg in
theorem unpackCells_length : (unpackCells n g).length = byteCount n g.length := by
  simpa [unpackCells, unpackFull_eq_parts] using byteCount_le_groupBytes h hg

variable (hlt : ∀ x ∈ g, x.toNat < 2 ^ n)
include h hg hlt

/-- `bytes` spells the bits of the group, then zero bits. -/
theorem flatMap_bits_unpackFull_zeroPad :
    (unpackFull n (zeroPad (groupSyms n) g)).flatMap (bits 8) =
      bitString n g ++ List.replicate (n * (groupSyms n - g.length)) false := by
  rw [flatMap_bits_unpackFull h (zeroPad_length hg) (zeroPad_lt_two_pow hlt), flatMap_bits_zeroPad]

/-- The bytes of the result spell the first of the bits of the group. -/
theorem bitString_unpackCells :
    bitString 8 (unpackCells n g) = (bitString n g).take (8 * byteCount n g.length) := by
  have hroom : 8 * byteCount n g.length ≤ (bitString n g).length := by
    simpa using eight_mul_byteCount_le n g.length
  rw [unpackCells, bitString_map_ofNat (Nat.le_refl 8), flatMap_bits_take,
    flatMap_bits_unpackFull_zeroPad h hg hlt, List.take_append_of_le_length hroom]

/-- What R143 inspects is a one bit after the last whole byte. -/
theorem any_drop_unpackFull :
    ((unpackFull n (zeroPad (groupSyms n) g)).drop (byteCount n g.length)).any (· != 0) = true ↔
      Trailing n g := by
  have hroom : 8 * byteCount n g.length ≤ (bitString n g).length := by
    simpa using eight_mul_byteCount_le n g.length
  have hbyte : ∀ d ∈ (unpackFull n (zeroPad (groupSyms n) g)).drop (byteCount n g.length),
      d < 2 ^ 8 := fun d hd => by
    rw [unpackFull_eq_parts] at hd
    exact parts_lt d (List.mem_of_mem_drop hd)
  rw [any_ne_zero_iff hbyte, flatMap_bits_drop, flatMap_bits_unpackFull_zeroPad h hg hlt,
    List.drop_append_of_le_length hroom]
  simp

omit h in
/-- Behind the checks of size and range the trailing bits decide. -/
theorem unpack_of_forall_lt : unpack n g =
    if ((unpackFull n (zeroPad (groupSyms n) g)).drop (byteCount n g.length)).any (· != 0) then
      .error .notCanonicalInput
    else .ok (unpackCells n g) := by
  have hany : ¬ g.any (fun v => decide (pow2 n ≤ v.toNat)) = true := fun hany => by
    obtain ⟨x, hx, hge⟩ := any_pow2_le_iff.mp hany
    exact absurd (hlt x hx) (Nat.not_lt.mpr hge)
  rw [unpack, if_neg (Nat.not_lt.mpr hg), if_neg hany]
  rfl

theorem unpack_of_trailing (ht : Trailing n g) : unpack n g = .error .notCanonicalInput := by
  rw [unpack_of_forall_lt hg hlt, if_pos ((any_drop_unpackFull h hg hlt).mpr ht)]

theorem unpack_eq_ok (ht : ¬ Trailing n g) : unpack n g = .ok (unpackCells n g) := by
  rw [unpack_of_forall_lt hg hlt, if_neg (mt (any_drop_unpackFull h hg hlt).mp ht)]

end

/-- An accepted group passed every check. -/
theorem unpack_eq_ok_inv {n : Nat} (h : Width n) {g xs : List Byte} (hu : unpack n g = .ok xs) :
    g.length ≤ groupSyms n ∧ (∀ x ∈ g, x.toNat < 2 ^ n) ∧ ¬ Trailing n g ∧
      xs = unpackCells n g := by
  have hg : g.length ≤ groupSyms n := by
    by_contra hover
    rw [unpack, if_pos (Nat.not_le.mp hover)] at hu
    cases hu
  have hlt : ∀ x ∈ g, x.toNat < 2 ^ n := by
    by_contra hge
    push Not at hge
    rw [unpack_of_exists_ge hg hge] at hu
    cases hu
  have ht : ¬ Trailing n g := fun ht => by
    rw [unpack_of_trailing h hg hlt ht] at hu
    cases hu
  rw [unpack_eq_ok h hg hlt ht] at hu
  exact ⟨hg, hlt, ht, (Except.ok.inj hu).symm⟩

/-! ## Unpack and Pack -/

/-- A sequence whose bits are those of k bytes and then zero bits has nothing trailing, and its
whole bytes are those k bytes. -/
theorem not_trailing_of_bitString {n : Nat} (h : Width n) {g ys : List Byte} {z : Nat}
    (hlen : ys.length = symCount n g.length)
    (hbits : bitString n ys = bitString 8 g ++ List.replicate z false) :
    ¬ Trailing n ys ∧ (bitString n ys).take (8 * byteCount n ys.length) = bitString 8 g := by
  have hcount : 8 * byteCount n ys.length = (bitString 8 g).length := by
    rw [hlen, byteCount_symCount h, bitString_length]
  constructor
  · rw [Trailing, hcount, hbits, List.drop_left]
    simp
  · rw [hcount, hbits, List.take_left]

/-- `43_unpacker.md` R147. -/
theorem unpack_packCells {n : Nat} (h : Width n) {g : List Byte} (hg : g.length ≤ groupBytes n) :
    unpack n (packCells n g) = .ok g := by
  have hlen := packCells_length h hg
  have hfits : (packCells n g).length ≤ groupSyms n := hlen ▸ symCount_le_groupSyms h hg
  obtain ⟨ht, htake⟩ := not_trailing_of_bitString h hlen (bitString_packCells h hg)
  rw [unpack_eq_ok h hfits (packCells_lt h) ht]
  refine congrArg Except.ok (bitString_eight_inj ?_)
  rw [bitString_unpackCells h hfits (packCells_lt h), htake]

/-- `43_unpacker.md` R148: with no one bit trailing, the bits of the symbols are those of the result
and then zero bits, as are the bits that Pack spells. -/
theorem packCells_unpackCells {n k : Nat} (h : Width n) {ys : List Byte} (hk : k ≤ groupBytes n)
    (hlen : ys.length = symCount n k) (hlt : ∀ x ∈ ys, x.toNat < 2 ^ n) (ht : ¬ Trailing n ys) :
    packCells n (unpackCells n ys) = ys ∧ (unpackCells n ys).length = k := by
  have hfits : ys.length ≤ groupSyms n := hlen ▸ symCount_le_groupSyms h hk
  have hcount : (unpackCells n ys).length = k := by
    rw [unpackCells_length h hfits, hlen, byteCount_symCount h]
  have hzero : (bitString n ys).drop (8 * byteCount n ys.length) =
      List.replicate (n * symCount n k - 8 * k) false := by
    refine List.eq_replicate_iff.mpr ⟨?_, fun b hb => ?_⟩
    · rw [List.length_drop, bitString_length, hlen, byteCount_symCount h]
    · cases b with
      | false => rfl
      | true => exact absurd hb ht
  refine ⟨bitString_inj (by omega) (packCells_lt h) hlt ?_, hcount⟩
  rw [bitString_packCells h (hcount ▸ hk), bitString_unpackCells h hfits hlt, hcount, ← hzero,
    List.take_append_drop]

/-- Settles O43: both directions compare bit strings, which determine their sequences. -/
theorem unpackUndoesPack : Obligations.UnpackUndoesPack := by
  unfold Obligations.UnpackUndoesPack
  refine ⟨fun n g h hg => ⟨packCells n g, pack_eq_ok hg, unpack_packCells h hg⟩,
    fun n k ys g h hk hlen hu => ?_⟩
  obtain ⟨-, hlt, ht, rfl⟩ := unpack_eq_ok_inv h hu
  obtain ⟨hback, hcount⟩ := packCells_unpackCells h hk hlen hlt ht
  rw [pack_eq_ok (hcount ▸ hk), hback]

/-! ## UNPACK -/

theorem decodeWord_unpack (a : Alphabet) :
    decodeWord (BitVec.ofNat 8 (0x20 + a.id.toNat)) = .ok (.unpack a) :=
  decodeWord_encodeWord (.unpack a)

/-- Settles O23: UNPACK ends as `unpack` does, behind the check of the length. -/
theorem unpackChecksAndRegroups : Obligations.UnpackChecksAndRegroups := by
  unfold Obligations.UnpackChecksAndRegroups
  refine ⟨decodeWord_unpack, fun w hlo hhi => (illegal_iff w).mpr (by omega), by decide, fun a s =>
    ⟨completes_of_over rfl (decodeWord_unpack a), fun hcap hover => ?_, fun xs hin hg => ?_⟩⟩
  · exact completes_of_lengthError rfl (decodeWord_unpack a) hcap (groupSizeError_over hover)
  · have hwidth := symbolBits_width a
    have hsize := groupSizeError_fits hg
    refine ⟨fun hge => ?_, fun hlt ht => ?_, fun hlt ht => ?_⟩
    · exact completes_of_error rfl (decodeWord_unpack a) hin hsize (unpack_of_exists_ge hg hge)
    · exact completes_of_error rfl (decodeWord_unpack a) hin hsize
        (unpack_of_trailing hwidth hg hlt ht)
    · have hlen := unpackCells_length hwidth hg
      have hfits : (unpackCells (symbolBits a) xs).length ≤ s.mcap := by
        rw [hlen]
        exact (byteCount_le_groupBytes hwidth hg).trans
          ((groupBytes_le hwidth).trans s.mcap_bounds.1)
      exact ⟨unpackCells (symbolBits a) xs,
        completes_of_ok rfl (decodeWord_unpack a) hin hsize (unpack_eq_ok hwidth hg hlt ht) hfits,
        hlen, bitString_unpackCells hwidth hg hlt⟩

end Sys2Proof.Machine
end

section
/-! SUPPORT. The sliding-cursor algorithms (`42_packer.md` R129, `43_unpacker.md` R144): both hold a
register of some bits, take elements in at its low end and draw elements off its high end, and what
the register and the coming elements spell together never changes. -/

namespace Sys2Proof.Machine

open Sys2Proof.Claims

/-! ## The register -/

section
variable {k m acc v : Nat} (hv : v < 2 ^ k)
include hv

/-- Taking v in at the low end appends its k bits. -/
theorem bits_shiftLeft_or : bits (m + k) (acc <<< k ||| v) = bits m acc ++ bits k v := by
  have hhigh : (acc <<< k ||| v) >>> k = acc := by
    rw [Nat.shiftRight_or_distrib, Nat.shiftLeft_shiftRight, Nat.shiftRight_eq_div_pow,
      Nat.div_eq_of_lt hv, Nat.or_zero]
  have hlow : (acc <<< k ||| v) % 2 ^ k = v := by
    rw [← Nat.shiftLeft_add_eq_or_of_lt hv, Nat.shiftLeft_eq, Nat.mul_add_mod',
      Nat.mod_eq_of_lt hv]
  rw [bits_add, hhigh, ← bits_mod (Nat.le_refl k) (acc <<< k ||| v), hlow]

theorem shiftLeft_or_lt (hacc : acc < 2 ^ m) : acc <<< k ||| v < 2 ^ (m + k) := by
  refine Nat.or_lt_two_pow ?_ (hv.trans_le (Nat.pow_le_pow_right (by decide) (Nat.le_add_left k m)))
  rw [Nat.shiftLeft_eq, pow_add]
  exact Nat.mul_lt_mul_of_pos_right hacc (Nat.two_pow_pos k)

end

section
variable {n h : Nat} (hn : n ≤ h)
include hn

/-- Drawing n bits off the high end leaves the others. -/
theorem bits_draw (W : Nat) :
    bits h W = bits n (W >>> (h - n)) ++ bits (h - n) (W &&& (pow2 (h - n) - 1)) := by
  rw [pow2, Nat.and_two_pow_sub_one_eq_mod, bits_mod (Nat.le_refl _), ← bits_add,
    Nat.add_sub_cancel' hn]

theorem draw_lt {W : Nat} (hW : W < 2 ^ h) : W >>> (h - n) < 2 ^ n := by
  rw [Nat.shiftRight_eq_div_pow, Nat.div_lt_iff_lt_mul (Nat.two_pow_pos _), ← pow_add,
    Nat.add_sub_cancel' hn]
  exact hW

end

/-- The n bits of a drawn element are the first n. -/
theorem take_add_bits_append (n k x : Nat) (bs : List Bool) :
    (bits n x ++ bs).take (n + k) = bits n x ++ bs.take k := by
  simpa using List.take_length_add_append (l₁ := bits n x) (l₂ := bs) k

theorem and_pow2_sub_one_lt (W m : Nat) : W &&& (pow2 m - 1) < 2 ^ m := by
  rw [pow2, Nat.and_two_pow_sub_one_eq_mod]
  exact Nat.mod_lt _ (Nat.two_pow_pos m)

/-! ## The Packer's cursor -/

/-- With enough bits held the loop draws a symbol. -/
theorem packCursorLoop_draw {n cb : Nat} (h : n ≤ cb) (k carry : Nat) (rest : List Nat) :
    packCursorLoop n (k + 1) carry cb rest = (carry >>> (cb - n)) ::
      packCursorLoop n k (carry &&& (pow2 (cb - n) - 1)) (cb - n) rest := by
  simp [packCursorLoop, Nat.not_lt.mpr h]

/-- With too few bits held the loop takes a byte in first; then it holds enough. -/
theorem packCursorLoop_load {n cb : Nat} (h : cb < n) (hn : n ≤ 8) (k carry b : Nat)
    (rest : List Nat) : packCursorLoop n (k + 1) carry cb (b :: rest) =
      packCursorLoop n (k + 1) (carry <<< 8 ||| b) (cb + 8) rest := by
  have henough : n ≤ cb + 8 := Nat.le_add_left_of_le hn
  rw [packCursorLoop_draw henough]
  simp [packCursorLoop, h]

/-- From this register the loop draws symbols of n bits that spell what the register and the coming
bytes spell, as far as it goes. -/
def PackLoopSpells (n count carry cb : Nat) (rest : List Nat) : Prop :=
  carry < 2 ^ cb → (∀ b ∈ rest, b < 2 ^ 8) → n * count ≤ cb + 8 * rest.length →
    (∀ v ∈ packCursorLoop n count carry cb rest, v < 2 ^ n) ∧
    (packCursorLoop n count carry cb rest).flatMap (bits n) =
      (bits cb carry ++ rest.flatMap (bits 8)).take (n * count)

theorem packLoopSpells_draw {n k carry cb : Nat} {rest : List Nat} (h : n ≤ cb)
    (ih : ∀ carry cb rest, PackLoopSpells n k carry cb rest) :
    PackLoopSpells n (k + 1) carry cb rest := by
  intro hcarry hrest hroom
  rw [Nat.mul_succ] at hroom ⊢
  obtain ⟨hlt, hbits⟩ :=
    ih _ (cb - n) rest (and_pow2_sub_one_lt carry (cb - n)) hrest (by omega)
  rw [packCursorLoop_draw h, List.flatMap_cons, hbits, bits_draw h carry, List.append_assoc,
    Nat.add_comm (n * k), take_add_bits_append]
  exact ⟨List.forall_mem_cons.mpr ⟨draw_lt h hcarry, hlt⟩, rfl⟩

theorem packLoopSpells {n : Nat} (hn : n ≤ 8) (count carry cb : Nat) (rest : List Nat) :
    PackLoopSpells n count carry cb rest := by
  induction count generalizing carry cb rest with
  | zero => exact fun _ _ _ => ⟨by simp [packCursorLoop], by simp [packCursorLoop]⟩
  | succ k ih =>
    by_cases h : n ≤ cb
    · exact packLoopSpells_draw h ih
    · have hlt : cb < n := Nat.not_le.mp h
      intro hcarry hrest hroom
      obtain _ | ⟨b, rest⟩ := rest
      · rw [Nat.mul_succ, List.length_nil] at hroom
        omega
      · obtain ⟨hb, hrest⟩ := List.forall_mem_cons.mp hrest
        rw [packCursorLoop_load hlt hn, List.flatMap_cons, ← List.append_assoc,
          ← bits_shiftLeft_or hb]
        rw [List.length_cons] at hroom
        exact packLoopSpells_draw (by omega) ih (shiftLeft_or_lt hb hcarry) hrest (by omega)

/-- Settles O44: the cursor and the definition draw symbols of n bits that spell the same bits. -/
theorem packCursorEqualsPack : Obligations.PackCursorEqualsPack := by
  unfold Obligations.PackCursorEqualsPack
  intro n p h hlen hp
  obtain ⟨hbytes, hsyms⟩ := groupBits_eq h
  have hbits : n * groupSyms n = 8 * p.length := by omega
  obtain ⟨hlt, hspell⟩ := packLoopSpells (by omega : n ≤ 8) (groupSyms n) 0 0 p
    Nat.one_pos hp (by omega)
  have hfull : ∀ v ∈ packFull n p, v < 2 ^ n := by
    rw [packFull_eq_parts h]
    exact parts_lt
  refine flatMap_bits_inj (by omega) hlt hfull ?_
  rw [packCursor, hspell, flatMap_bits_packFull h hlen hp, hbits, bits_zero, List.replicate_zero,
    List.nil_append, ← flatMap_bits_take, List.take_length]

/-! ## The Unpacker's cursor -/

/-- With 8 bits or more held after taking a symbol in, the loop draws a byte. -/
theorem unpackCursorLoop_draw {n ab : Nat} (h : 8 ≤ ab + n) (acc v : Nat) (rest : List Nat) :
    unpackCursorLoop n acc ab (v :: rest) = ((acc <<< n ||| v) >>> (ab + n - 8)) ::
      unpackCursorLoop n ((acc <<< n ||| v) &&& (pow2 (ab + n - 8) - 1)) (ab + n - 8) rest :=
  if_pos h

theorem unpackCursorLoop_hold {n ab : Nat} (h : ab + n < 8) (acc v : Nat) (rest : List Nat) :
    unpackCursorLoop n acc ab (v :: rest) =
      unpackCursorLoop n (acc <<< n ||| v) (ab + n) rest :=
  if_neg (Nat.not_le.mpr h)

/-- Every symbol brings at most one byte, so fewer than 8 bits stay in the register, and the loop
draws the whole bytes of what the register and the symbols spell. -/
theorem unpackLoop_spells {n : Nat} (hn : n ≤ 8) {acc ab : Nat} {q : List Nat} (hab : ab < 8)
    (hacc : acc < 2 ^ ab) (hq : ∀ v ∈ q, v < 2 ^ n) :
    (∀ b ∈ unpackCursorLoop n acc ab q, b < 2 ^ 8) ∧
    (unpackCursorLoop n acc ab q).flatMap (bits 8) =
      (bits ab acc ++ q.flatMap (bits n)).take (8 * ((ab + n * q.length) / 8)) := by
  induction q generalizing acc ab with
  | nil => simp [unpackCursorLoop, Nat.div_eq_of_lt hab]
  | cons v rest ih =>
    obtain ⟨hv, hrest⟩ := List.forall_mem_cons.mp hq
    have htaken : acc <<< n ||| v < 2 ^ (ab + n) := shiftLeft_or_lt hv hacc
    have hlen : ab + n * (v :: rest).length = ab + n + n * rest.length := by
      rw [List.length_cons, Nat.mul_succ]
      omega
    rw [List.flatMap_cons, ← List.append_assoc, ← bits_shiftLeft_or hv, hlen]
    by_cases h : 8 ≤ ab + n
    · obtain ⟨hlt, hbits⟩ := ih (by omega) (and_pow2_sub_one_lt _ (ab + n - 8)) hrest
      have hcount : 8 * ((ab + n + n * rest.length) / 8) =
          8 + 8 * ((ab + n - 8 + n * rest.length) / 8) := by omega
      rw [unpackCursorLoop_draw h, List.flatMap_cons, hbits, hcount, bits_draw h (acc <<< n ||| v),
        List.append_assoc, take_add_bits_append]
      exact ⟨List.forall_mem_cons.mpr ⟨draw_lt h htaken, hlt⟩, rfl⟩
    · rw [unpackCursorLoop_hold (Nat.not_le.mp h)]
      exact ih (by omega) htaken hrest

/-- Settles O45: the cursor and the definition draw bytes that spell the same bits. -/
theorem unpackCursorEqualsUnpack : Obligations.UnpackCursorEqualsUnpack := by
  unfold Obligations.UnpackCursorEqualsUnpack
  intro n q h hlen hq
  obtain ⟨hbytes, hsyms⟩ := groupBits_eq h
  have hwhole : 8 * ((0 + n * q.length) / 8) = n * q.length := by
    rw [hlen]
    omega
  obtain ⟨hlt, hspell⟩ := unpackLoop_spells (by omega : n ≤ 8) (acc := 0) (ab := 0) (by decide)
    Nat.one_pos hq
  have hfull : ∀ b ∈ unpackFull n q, b < 2 ^ 8 := by
    rw [unpackFull_eq_parts]
    exact parts_lt
  refine flatMap_bits_inj (by decide) hlt hfull ?_
  rw [unpackCursor, hspell, flatMap_bits_unpackFull h hlen hq, hwhole, bits_zero,
    List.replicate_zero, List.nil_append, ← flatMap_bits_take, List.take_length]

end Sys2Proof.Machine
end

section
/-! SUPPORT. The two lookups are inverse to each other (`40_alphabet.md` R98), on one element and on
a sequence. -/

namespace Sys2Proof.Machine

open Sys2Proof.Claims

/-! ## One element -/

theorem valueToChar1_eq_ok_iff {a : Alphabet} {v c : Byte} :
    valueToChar1 a v = .ok c ↔ (table a)[v.toNat]? = some c := by
  unfold valueToChar1
  cases (table a)[v.toNat]? <;> simp

/-- Only values below 2^n have a place in the table. -/
theorem lt_of_table_getElem? {a : Alphabet} {v c : Byte} (h : (table a)[v.toNat]? = some c) :
    v.toNat < 2 ^ symbolBits a := by
  obtain ⟨hlt, -⟩ := List.getElem?_eq_some_iff.mp h
  rwa [table_length] at hlt

/-- The character at a place of the table has that place as its value. -/
theorem charToValue1_of_getElem? {a : Alphabet} {v c : Byte} (f : Bool)
    (h : (table a)[v.toNat]? = some c) : charToValue1 a f c = .ok v := by
  simp [charToValue1, indexOf_getElem (table_nodup a) h]

/-- Settles O41: a value and its character hold the same place of the table. -/
theorem lookupsAreInverse : Obligations.LookupsAreInverse := by
  unfold Obligations.LookupsAreInverse
  refine ⟨fun a f v hv => ?_, fun a f c hc => ?_⟩
  · obtain ⟨c, hc⟩ := valueToChar1_of_lt hv
    have hplace := valueToChar1_eq_ok_iff.mp hc
    exact ⟨c, hc, List.mem_of_getElem? hplace, charToValue1_of_getElem? f hplace⟩
  · obtain ⟨v, hv, hplace⟩ := charToValue1_of_mem f hc
    exact ⟨v, hv, lt_of_table_getElem? hplace, valueToChar1_eq_ok_iff.mpr hplace⟩

/-! ## A sequence -/

/-- Every value of syms has its character in chars, in place. -/
abbrev Spelled (a : Alphabet) (syms chars : List Byte) : Prop :=
  List.Forall₂ (fun v c => (table a)[v.toNat]? = some c) syms chars

theorem spelled_of_getElem? {a : Alphabet} {syms chars : List Byte}
    (hlen : syms.length = chars.length)
    (h : ∀ (j : Nat) (v c : Byte), syms[j]? = some v → chars[j]? = some c →
      (table a)[v.toNat]? = some c) : Spelled a syms chars := by
  rw [Spelled, List.forall₂_iff_get]
  exact ⟨hlen, fun j hj hj' => h j _ _ (List.getElem?_eq_getElem hj) (List.getElem?_eq_getElem hj')⟩

theorem spelled_of_valueToChar {a : Alphabet} {syms chars : List Byte}
    (h : valueToChar a syms = .ok chars) : Spelled a syms chars :=
  (mapCells_eq_ok.mp h).imp fun _ _ => valueToChar1_eq_ok_iff.mp

/-- The values of a text that needs no pad marker spell it. -/
theorem spelled_of_charToValue {a : Alphabet} {u syms : List Byte}
    (h : charToValue a false u = .ok syms) : Spelled a syms u := by
  refine (mapCells_eq_ok.mp h).flip.imp fun v c hv => ?_
  by_cases hmem : c ∈ table a
  · obtain ⟨v', hv', hplace⟩ := charToValue1_of_mem false hmem
    rw [hv'] at hv; cases hv; exact hplace
  · rw [charToValue1_of_notMem false hmem, if_neg (by simp)] at hv
    cases hv

/-- Where a sequence of values succeeds in V2C, its values are below 2^n. -/
theorem Spelled.lt {a : Alphabet} {syms chars : List Byte} (h : Spelled a syms chars) :
    ∀ v ∈ syms, v.toNat < 2 ^ symbolBits a := by
  induction h with
  | nil => simp
  | cons hplace _ ih => exact List.forall_mem_cons.mpr ⟨lt_of_table_getElem? hplace, ih⟩

theorem Spelled.mem_table {a : Alphabet} {syms chars : List Byte} (h : Spelled a syms chars) :
    ∀ c ∈ chars, c ∈ table a := by
  induction h with
  | nil => simp
  | cons hplace _ ih => exact List.forall_mem_cons.mpr ⟨List.mem_of_getElem? hplace, ih⟩

/-- No alphabet has the pad character (`40_alphabet.md` R93). -/
theorem Spelled.padChar_notMem {a : Alphabet} {syms chars : List Byte} (h : Spelled a syms chars) :
    padChar ∉ chars := fun hmem => padChar_notMem_table a (h.mem_table _ hmem)

/-- The values of the characters are the values they were spelled from. -/
theorem Spelled.charToValue_eq_ok {a : Alphabet} {syms chars : List Byte}
    (h : Spelled a syms chars) (f : Bool) : charToValue a f chars = .ok syms :=
  mapCells_eq_ok.mpr (h.imp fun _ _ => charToValue1_of_getElem? f).flip

end Sys2Proof.Machine
end

section
/-! SUPPORT. The Padder (`44_padder.md`): the number of pad characters is the one that fills the
last pad group, PadStrip removes them again, and PADA ends as it says. -/

namespace Sys2Proof.Machine

open Sys2Proof.Claims

/-- `44_padder.md` R155. -/
theorem padGroup_cases (a : Alphabet) : padGroup a = 0 ∨ padGroup a = 4 ∨ padGroup a = 8 := by
  cases a <;> decide

/-- The number of pad characters is the only one that fills the last pad group. -/
theorem padRun_iff {a : Alphabet} {f : Bool} {k r : Nat} : PadRun a f k r ↔ r = padCount a f k := by
  unfold PadRun padCount
  split
  · next h =>
    obtain ⟨-, hne⟩ := h
    obtain h0 | h4 | h8 := padGroup_cases a
    · exact absurd h0 hne
    · rw [h4]; omega
    · rw [h8]; omega
  · exact Iff.rfl

/-- `60_exceptions.md` R205: the padded length is the next multiple of PG, where padding applies. -/
theorem paddedLength_eq (a : Alphabet) (f : Bool) (k : Nat) : paddedLength a f k =
    if f = true ∧ padGroup a ≠ 0 then padGroup a * ((k + padGroup a - 1) / padGroup a) else k := by
  unfold paddedLength padCount
  split
  · next h =>
    obtain ⟨-, hne⟩ := h
    obtain h0 | h4 | h8 := padGroup_cases a
    · exact absurd h0 hne
    · rw [h4]; omega
    · rw [h8]; omega
  · rfl

theorem padAppend_eq_ok (a : Alphabet) (f : Bool) (t : List Byte) :
    padAppend a f t = .ok (t ++ List.replicate (padCount a f t.length) padChar) := rfl

/-- The padding does not reach past the end of a pad group. -/
theorem paddedLength_le {a : Alphabet} (f : Bool) {k m : Nat} (hk : k ≤ m)
    (hm : padGroup a = 0 ∨ padGroup a ∣ m) : paddedLength a f k ≤ m := by
  rw [paddedLength_eq]
  split
  · next h =>
    obtain ⟨-, hne⟩ := h
    obtain ⟨q, rfl⟩ := hm.resolve_left hne
    refine Nat.mul_le_mul_left _ (Nat.lt_add_one_iff.mp ?_)
    rw [Nat.div_lt_iff_lt_mul (Nat.pos_of_ne_zero hne), Nat.mul_comm, Nat.mul_add_one]
    omega
  · exact hk

/-- What PadStrip answers is what stands before the first pad character (`44_padder.md` R159). -/
theorem padStrip_eq_ok_inv {t u : List Byte} (h : padStrip t = .ok u) :
    u = t.takeWhile (· != padChar) := by
  rw [padStrip] at h
  split at h <;> cases h
  rfl

theorem padStrip_length_le {t u : List Byte} (h : padStrip t = .ok u) : u.length ≤ t.length := by
  rw [padStrip_eq_ok_inv h]
  exact (List.takeWhile_sublist _).length_le

/-- `44_padder.md` R160: DECODE's function sees the text before the padding alone. -/
theorem decodeText_append_replicate (a : Alphabet) {t : List Byte} (h : padChar ∉ t) (r : Nat) :
    decodeText a (t ++ List.replicate r padChar) =
      andThen (charToValue a false t) (unpackMessage (symbolBits a)) := by
  rw [decodeText, padStrip_append_replicate h, andThen_ok]

/-- Settles O46: stripping an uninterrupted padding gives the text before it. -/
theorem stripUndoesAppend : Obligations.StripUndoesAppend := by
  unfold Obligations.StripUndoesAppend
  refine ⟨fun a f t h => ⟨_, padAppend_eq_ok a f t, padStrip_append_replicate h _⟩,
    padChar_notMem_table, fun a t j k h => ?_⟩
  exact (decodeText_append_replicate a h j).trans (decodeText_append_replicate a h k).symm

theorem decodeWord_pada (f : Bool) (a : Alphabet) :
    decodeWord (BitVec.ofNat 8 (0x50 + 8 * f.toNat + a.id.toNat)) = .ok (.pada f a) := by
  cases f <;> cases a <;> decide

/-- Settles O26: PADA ends as PadAppend does, behind the check of the padded length. -/
theorem padaAppendsPadCharacters : Obligations.PadaAppendsPadCharacters := by
  unfold Obligations.PadaAppendsPadCharacters
  refine ⟨decodeWord_pada, (illegal_iff _).mpr (by decide), (illegal_iff _).mpr (by decide),
    fun f a s => ⟨completes_of_over rfl (decodeWord_pada f a), fun r hr => ?_⟩⟩
  obtain rfl := padRun_iff.mp hr
  refine ⟨fun hcap hover => ?_, fun xs hin hfits => ?_⟩
  · exact completes_of_lengthError rfl (decodeWord_pada f a) hcap (outputSizeError_over hover)
  · have ⟨hlen, _, _⟩ := hin
    rw [hlen] at hfits ⊢
    exact completes_of_ok rfl (decodeWord_pada f a) hin (outputSizeError_fits hfits)
      (padAppend_eq_ok a f xs) (by simpa using hfits)

end Sys2Proof.Machine
end

section
/-! SUPPORT. Whole messages (`45_codec.md`): a stage over the groups of a sequence, group by group,
and what the Packer and the Unpacker make of a message of any length. -/

namespace Sys2Proof.Machine

open Sys2Proof.Claims

/-! ## A stage over groups -/

section
variable {g : Nat} (hg : 1 ≤ g)
include hg

/-- Induction on a sequence by its groups: at most one group, or a full group before the others. -/
theorem group_induction {motive : List Byte → Prop} (short : ∀ xs, xs.length ≤ g → motive xs)
    (long : ∀ xs rest, xs.length = g → motive rest → motive (xs ++ rest)) (xs : List Byte) :
    motive xs := by
  induction xs using drop_induction hg with
  | nil => exact short [] (Nat.zero_le g)
  | cons xs _ ih =>
    by_cases hlen : xs.length ≤ g
    · exact short xs hlen
    · rw [← List.take_append_drop g xs]
      exact long _ _ (List.length_take_of_le (Nat.le_of_not_le hlen)) ih

/-- At most one group: the stage is its function. -/
theorem concatGroups_chunks_of_le {fn : List Byte → Seq} (hnil : fn [] = .ok []) {xs : List Byte}
    (hlen : xs.length ≤ g) : concatGroups fn (chunks g xs) = fn xs := by
  by_cases hne : xs = []
  · subst hne
    exact hnil.symm
  · rw [chunks_cons hg hne, List.take_of_length_le hlen, List.drop_of_length_le hlen, chunks_nil]
    cases hfn : fn xs with
    | error k => exact concatGroups_cons_error hfn
    | ok ys => rw [concatGroups_cons_ok hfn, concatGroups_nil, andThen_ok, List.append_nil]

/-- After a full group that succeeds, the others decide. -/
theorem concatGroups_chunks_append {fn : List Byte → Seq} {xs rest ys : List Byte}
    (hlen : xs.length = g) (hfn : fn xs = .ok ys) :
    concatGroups fn (chunks g (xs ++ rest)) =
      andThen (concatGroups fn (chunks g rest)) fun zs => .ok (ys ++ zs) := by
  have hne : xs ++ rest ≠ [] := List.ne_nil_of_length_pos (by rw [List.length_append]; omega)
  rw [chunks_cons hg hne, List.take_left' hlen, List.drop_left' hlen, concatGroups_cons_ok hfn]

end

/-! ## The symbols of a message -/

/-- The symbols of the bytes b: ceil(8k/n) of them, below 2^n, that spell the bits of b and then
zero bits (`45_codec.md` R172, R173). -/
structure PackedAs (n : Nat) (b syms : List Byte) : Prop where
  length : syms.length = symCount n b.length
  lt : ∀ v ∈ syms, v.toNat < 2 ^ n
  bits : bitString n syms = bitString 8 b ++
    List.replicate (n * symCount n b.length - 8 * b.length) false

section
variable {n : Nat} (h : Width n)
include h

theorem pack_nil : pack n [] = .ok [] := by
  obtain rfl | rfl | rfl | rfl := h <;> rfl

theorem packedAs_packCells {g : List Byte} (hg : g.length ≤ groupBytes n) :
    PackedAs n g (packCells n g) :=
  ⟨packCells_length h hg, packCells_lt h, bitString_packCells h hg⟩

/-- A full group of bytes more is a full group of symbols more. -/
theorem symCount_groupBytes_add (k : Nat) :
    symCount n (groupBytes n + k) = groupSyms n + symCount n k := by
  obtain ⟨hbytes, hsyms⟩ := groupBits_eq h
  have hn : 0 < n := by omega
  unfold symCount ceilDiv
  rw [show 8 * (groupBytes n + k) + n - 1 = 8 * k + n - 1 + n * groupSyms n by omega,
    Nat.add_mul_div_left _ _ hn, Nat.add_comm]

/-- A full group has no zero bits after its own, so the next group's bits follow. -/
theorem PackedAs.append {b rest ys zs : List Byte} (hfull : b.length = groupBytes n)
    (hb : PackedAs n b ys) (hrest : PackedAs n rest zs) : PackedAs n (b ++ rest) (ys ++ zs) := by
  obtain ⟨hbytes, hsyms⟩ := groupBits_eq h
  have hcount := symCount_groupBytes_add h rest.length
  have hnone : n * symCount n b.length - 8 * b.length = 0 := by
    rw [hfull, symCount_groupBytes h]
    omega
  have hpad : n * (groupSyms n + symCount n rest.length) - 8 * (groupBytes n + rest.length) =
      n * symCount n rest.length - 8 * rest.length := by
    rw [Nat.mul_add]
    omega
  refine ⟨?_, List.forall_mem_append.mpr ⟨hb.lt, hrest.lt⟩, ?_⟩
  · rw [List.length_append, List.length_append, hb.length, hrest.length, hfull, hcount,
      symCount_groupBytes h]
  · rw [bitString_append, bitString_append, hb.bits, hrest.bits, hnone, List.length_append, hfull,
      hcount, hpad, List.replicate_zero, List.append_nil, List.append_assoc]

theorem packMessage_of_le {b : List Byte} (hb : b.length ≤ groupBytes n) :
    packMessage n b = .ok (packCells n b) :=
  (concatGroups_chunks_of_le (groupBytes_pos h) (pack_nil h) hb).trans (pack_eq_ok hb)

/-- Packing a message of any length cannot fail and spells it whole. -/
theorem packMessage_spec (b : List Byte) :
    ∃ syms, packMessage n b = .ok syms ∧ PackedAs n b syms := by
  induction b using group_induction (groupBytes_pos h) with
  | short b hb => exact ⟨_, packMessage_of_le h hb, packedAs_packCells h hb⟩
  | long b rest hfull ih =>
    obtain ⟨zs, hzs, hrest⟩ := ih
    refine ⟨packCells n b ++ zs, ?_, (packedAs_packCells h hfull.le).append h hfull hrest⟩
    rw [packMessage, concatGroups_chunks_append (groupBytes_pos h) hfull (pack_eq_ok hfull.le),
      ← packMessage, hzs, andThen_ok]

/-! ## The bytes of a symbol sequence -/

theorem unpack_nil : unpack n [] = .ok [] := by
  obtain rfl | rfl | rfl | rfl := h <;> rfl

theorem unpackMessage_of_le {syms : List Byte} (hlen : syms.length ≤ groupSyms n) :
    unpackMessage n syms = unpack n syms :=
  concatGroups_chunks_of_le (groupSyms_pos h) (unpack_nil h) hlen

theorem byteCount_groupSyms_add (m : Nat) :
    byteCount n (groupSyms n + m) = groupBytes n + byteCount n m := by
  obtain ⟨hbytes, hsyms⟩ := groupBits_eq h
  unfold byteCount
  rw [Nat.add_mul, Nat.mul_comm _ n, ← hsyms, hbytes, Nat.mul_add_div (by decide)]

section
variable {g : List Byte} (hfull : g.length = groupSyms n)
include hfull

/-- The bits of a full group are those of its whole bytes. -/
theorem bitString_length_of_full : (bitString n g).length = 8 * groupBytes n := by
  obtain ⟨hbytes, hsyms⟩ := groupBits_eq h
  rw [bitString_length, hfull]
  omega

theorem not_trailing_of_full : ¬ Trailing n g := by
  have hcount : byteCount n g.length = groupBytes n := by rw [hfull, byteCount_groupSyms h]
  rw [Trailing, hcount, ← bitString_length_of_full h hfull, List.drop_length]
  exact List.not_mem_nil

/-- Only the bits after the full groups can trail. -/
theorem trailing_append_iff (rest : List Byte) : Trailing n (g ++ rest) ↔ Trailing n rest := by
  rw [Trailing, List.length_append, hfull, byteCount_groupSyms_add h, Nat.mul_add,
    bitString_append, ← bitString_length_of_full h hfull, List.drop_length_add_append]

theorem bitString_take_append (rest : List Byte) :
    (bitString n (g ++ rest)).take (8 * byteCount n (g ++ rest).length) =
      bitString n g ++ (bitString n rest).take (8 * byteCount n rest.length) := by
  rw [List.length_append, hfull, byteCount_groupSyms_add h, Nat.mul_add, bitString_append,
    ← bitString_length_of_full h hfull, List.take_length_add_append]

theorem bitString_unpackCells_of_full (hlt : ∀ v ∈ g, v.toNat < 2 ^ n) :
    bitString 8 (unpackCells n g) = bitString n g := by
  rw [bitString_unpackCells h hfull.le hlt, hfull, byteCount_groupSyms h,
    ← bitString_length_of_full h hfull, List.take_length]

end

/-- A one bit after the last whole byte of the message is an error; else the whole bytes are the
result (`45_codec.md` R174, R180). -/
theorem unpackMessage_spec {syms : List Byte} (hlt : ∀ v ∈ syms, v.toNat < 2 ^ n) :
    (Trailing n syms → unpackMessage n syms = .error .notCanonicalInput) ∧
    (¬ Trailing n syms → ∃ ys, unpackMessage n syms = .ok ys ∧
      ys.length = byteCount n syms.length ∧
      bitString 8 ys = (bitString n syms).take (8 * byteCount n syms.length)) := by
  induction syms using group_induction (groupSyms_pos h) with
  | short syms hlen =>
    rw [unpackMessage_of_le h hlen]
    exact ⟨unpack_of_trailing h hlen hlt, fun ht => ⟨_, unpack_eq_ok h hlen hlt ht,
      unpackCells_length h hlen, bitString_unpackCells h hlen hlt⟩⟩
  | long g rest hfull ih =>
    obtain ⟨hg, hrest⟩ := List.forall_mem_append.mp hlt
    obtain ⟨herr, hok⟩ := ih hrest
    have hgroup := unpack_eq_ok h hfull.le hg (not_trailing_of_full h hfull)
    have hsplit : unpackMessage n (g ++ rest) =
        andThen (unpackMessage n rest) fun zs => .ok (unpackCells n g ++ zs) :=
      concatGroups_chunks_append (groupSyms_pos h) hfull hgroup
    rw [hsplit, trailing_append_iff h hfull]
    refine ⟨fun ht => by rw [herr ht, andThen_error], fun ht => ?_⟩
    obtain ⟨ys, hys, hlen, hbits⟩ := hok ht
    refine ⟨unpackCells n g ++ ys, by rw [hys, andThen_ok], ?_, ?_⟩
    · rw [List.length_append, unpackCells_length h hfull.le, hlen, hfull, byteCount_groupSyms h,
        List.length_append, hfull, byteCount_groupSyms_add h]
    · rw [bitString_append, bitString_unpackCells_of_full h hfull hg, hbits,
        bitString_take_append h hfull]

/-- `45_codec.md` R177, on symbols: the bytes of a message come back from its symbols. -/
theorem unpackMessage_of_packedAs {b syms : List Byte} (hb : PackedAs n b syms) :
    unpackMessage n syms = .ok b := by
  obtain ⟨ht, htake⟩ := not_trailing_of_bitString h hb.length hb.bits
  obtain ⟨-, hok⟩ := unpackMessage_spec h hb.lt
  obtain ⟨ys, hys, -, hbits⟩ := hok ht
  rw [hys, bitString_eight_inj (hbits.trans htake)]

end

/-- Symbols are at most as wide as bytes, so there are at least as many of them. -/
theorem byteCount_le {n : Nat} (h : Width n) (m : Nat) : byteCount n m ≤ m := by
  have hn : n ≤ 8 := by omega
  have hle : m * n ≤ m * 8 := Nat.mul_le_mul_left m hn
  unfold byteCount
  omega

end Sys2Proof.Machine
end

section
/-! SUPPORT. The codec (`45_codec.md`): `Encode` and `Decode` from their stages, that the one undoes
the other, and how ENCODE and DECODE end. -/

namespace Sys2Proof.Machine

open Sys2Proof.Claims

/-! ## Encode -/

/-- `Encode` cannot fail: its symbols have characters, which are followed by the padding. -/
theorem encodeText_spec (a : Alphabet) (f : Bool) (b : List Byte) :
    ∃ syms chars, PackedAs (symbolBits a) b syms ∧ valueToChar a syms = .ok chars ∧
      chars.length = symCount (symbolBits a) b.length ∧
      encodeText a f b = .ok (chars ++
        List.replicate (padCount a f (symCount (symbolBits a) b.length)) padChar) := by
  obtain ⟨syms, hsyms, hpacked⟩ := packMessage_spec (symbolBits_width a) b
  obtain ⟨chars, hchars⟩ := valueToChar_of_forall_lt hpacked.lt
  have hlen : chars.length = symCount (symbolBits a) b.length :=
    (mapCells_length hchars).trans hpacked.length
  refine ⟨syms, chars, hpacked, hchars, hlen, ?_⟩
  rw [encodeText, hsyms, andThen_ok, hchars, andThen_ok, padAppend_eq_ok, hlen]

/-- Settles O48: the text is one character for each symbol and the padding. -/
theorem encodedLengthLaw : Obligations.EncodedLengthLaw := by
  unfold Obligations.EncodedLengthLaw
  intro a f b
  obtain ⟨syms, chars, -, -, hlen, htext⟩ := encodeText_spec a f b
  refine ⟨_, symCount (symbolBits a) b.length, htext, rfl, ?_⟩
  rw [List.length_append, List.length_replicate, hlen]
  exact paddedLength_eq a f _

theorem decodeWord_encode (f : Bool) (a : Alphabet) :
    decodeWord (BitVec.ofNat 8 (0x70 + 8 * f.toNat + a.id.toNat)) = .ok (.encode f a) := by
  cases f <;> cases a <;> decide

/-- Settles O28: ENCODE ends as `Encode` does, behind the check of the text's length. -/
theorem encodeSpellsTheWholeMessage : Obligations.EncodeSpellsTheWholeMessage := by
  unfold Obligations.EncodeSpellsTheWholeMessage
  refine ⟨decodeWord_encode, (illegal_iff _).mpr (by decide), (illegal_iff _).mpr (by decide),
    fun f a s => ⟨completes_of_over rfl (decodeWord_encode f a), fun m r hm hr => ?_⟩⟩
  obtain rfl := padRun_iff.mp hr
  refine ⟨fun hcap hover => ?_, fun xs hin hfits => ?_⟩
  · rw [hm] at hover
    exact completes_of_lengthError rfl (decodeWord_encode f a) hcap (outputSizeError_over hover)
  · have ⟨hilen, _, _⟩ := hin
    have hm' : m = symCount (symbolBits a) xs.length := by rw [hm, hilen]; rfl
    subst hm'
    obtain ⟨syms, chars, hpacked, hchars, hlen, htext⟩ := encodeText_spec a f xs
    refine ⟨syms, chars, completes_of_ok rfl (decodeWord_encode f a) hin
      (outputSizeError_fits hfits) htext ?_, hpacked.length, hpacked.lt, hpacked.bits, hlen,
      fun j => by simpa using mapCells_getElem? hchars j⟩
    rwa [List.length_append, List.length_replicate, hlen]

/-! ## Decode -/

/-- Behind the first two stages the symbols decide. -/
theorem decodeText_of_spelled {a : Alphabet} {syms u : List Byte} (h : Spelled a syms u) (r : Nat) :
    decodeText a (u ++ List.replicate r padChar) = unpackMessage (symbolBits a) syms := by
  rw [decodeText_append_replicate a h.padChar_notMem, h.charToValue_eq_ok false, andThen_ok]

/-- `45_codec.md` R177, on texts. -/
theorem decodeText_encodeText (a : Alphabet) (f : Bool) (b : List Byte) :
    ∃ t, encodeText a f b = .ok t ∧ t.length = encodedLength a f b.length ∧
      decodeText a t = .ok b := by
  obtain ⟨syms, chars, hpacked, hchars, hlen, htext⟩ := encodeText_spec a f b
  refine ⟨_, htext, ?_, ?_⟩
  · rw [List.length_append, List.length_replicate, hlen]
    rfl
  · rw [decodeText_of_spelled (spelled_of_valueToChar hchars),
      unpackMessage_of_packedAs (symbolBits_width a) hpacked]

theorem decodeText_of_interrupted {a : Alphabet} {t : List Byte} (h : Interrupted t) :
    decodeText a t = .error .notCanonicalInput := by
  rw [decodeText, padStrip_of_interrupted h, andThen_error]

/-- Settles O29: DECODE ends as `Decode` does, stage after stage. -/
theorem decodeAcceptsExactlyTheCanonicalBits :
    Obligations.DecodeAcceptsExactlyTheCanonicalBits := by
  unfold Obligations.DecodeAcceptsExactlyTheCanonicalBits
  refine ⟨decodeWord_decode, fun w hlo hhi => (illegal_iff w).mpr (by omega), fun a s =>
    ⟨completes_of_over rfl (decodeWord_decode a), fun xs hin hint => ?_, fun u r hin hpad =>
      ⟨decode_completes_of_exists_outside hin hpad, fun syms hlen hplaces => ?_⟩⟩⟩
  · exact completes_of_error rfl (decodeWord_decode a) hin rfl (decodeText_of_interrupted hint)
  · have hspelled : Spelled a syms u := spelled_of_getElem? hlen hplaces
    have htext := decodeText_of_spelled hspelled r
    obtain ⟨herr, hok⟩ := unpackMessage_spec (symbolBits_width a) hspelled.lt
    rw [← hlen]
    refine ⟨fun ht => ?_, fun ht => ?_⟩
    · exact completes_of_error rfl (decodeWord_decode a) hin rfl (htext.trans (herr ht))
    · obtain ⟨ys, hys, hcount, hbits⟩ := hok ht
      have ⟨_, hcap, _⟩ := hin
      have hfits : ys.length ≤ s.mcap := by
        rw [hcount]
        have hsyms := byteCount_le (symbolBits_width a) syms.length
        rw [List.length_append] at hcap
        omega
      exact ⟨ys, completes_of_ok rfl (decodeWord_decode a) hin rfl (htext.trans hys) hfits, hcount,
        hbits⟩

end Sys2Proof.Machine
end

section
/-! SUPPORT. Chains of commands joined by XFER (`46_system.md`, `45_codec.md` R177, R181): the
result of a command is the input of the one after the transfer, so the functions compose. -/

namespace Sys2Proof.Machine

open Sys2Proof.Claims

/-! ## One link -/

/-- XFER makes the result of a command the input of the next one, whatever the code. -/
theorem exec_xfer_of_ends {s t : State} {w : Byte} {c : BitVec 3} {out : List Byte}
    (h : Ends s w c out t) (hcap : out.length ≤ s.mcap) :
    ∃ t', exec .xfer t = .next t' ∧ t'.err = 0 ∧ InputIs t' out ∧ t'.mcap = s.mcap := by
  obtain ⟨-, -, holen, hobuf, -, -, hcfg, -, -⟩ := h
  have hm : t.mcap = s.mcap := congrArg Config.mcap hcfg
  have hout : t.readOut = some out := State.readOut_eq_some.mpr ⟨holen.symm, fun j _ => hobuf j⟩
  rw [← hm] at hcap
  exact ⟨_, exec_xfer_of_readOut hout, rfl, ⟨holen, by simpa using hcap, fun j hj =>
    State.read_copied (s := t.storeCmd (encodeWord .xfer)) hcap hj⟩, by simp [hm]⟩

theorem runStopping_cons {i : Instr} {s t : State} (rest : List Instr) (h : exec i s = .next t) :
    runStopping (i :: rest) s = if t.err = 0 then runStopping rest t else some t := by
  rw [runStopping, h]

theorem runAll_cons {i : Instr} {s t : State} (rest : List Instr) (h : exec i s = .next t) :
    runAll (i :: rest) s = runAll rest t := by
  rw [runAll, h]

section
variable {i : Instr} {s : State} {w : Byte} {out : List Byte}

/-- A success and its transfer: the rest of either chain runs on the result. -/
theorem run_xfer_of_completes (h : Completes i s w 0 out) (hcap : out.length ≤ s.mcap) :
    ∃ s', InputIs s' out ∧ s'.mcap = s.mcap ∧
      (∀ rest, runStopping (i :: .xfer :: rest) s = runStopping rest s') ∧
      ∀ rest, runAll (i :: .xfer :: rest) s = runAll rest s' := by
  obtain ⟨t, ht, hends⟩ := h
  have ⟨_, herr, _⟩ := hends
  obtain ⟨s', hx, herr', hin, hm⟩ := exec_xfer_of_ends hends hcap
  refine ⟨s', hin, hm, fun rest => ?_, fun rest => ?_⟩
  · rw [runStopping_cons _ ht, if_pos herr, runStopping_cons _ hx, if_pos herr']
  · rw [runAll_cons _ ht, runAll_cons _ hx]

/-- A failure stops the chain. -/
theorem runStopping_of_error {k : ErrorKind} (h : Completes i s w k.code []) (rest : List Instr) :
    ∃ t, runStopping (i :: rest) s = some t ∧ Ends s w k.code [] t := by
  obtain ⟨t, ht, hends⟩ := h
  have ⟨_, herr, _⟩ := hends
  exact ⟨t, by rw [runStopping_cons _ ht, if_neg (herr ▸ k.code_ne_zero)], hends⟩

/-- The last command of a chain ends it. -/
theorem run_singleton {c : BitVec 3} (h : Completes i s w c out) :
    ∃ t, runStopping [i] s = some t ∧ runAll [i] s = some t ∧ Ends s w c out t := by
  obtain ⟨t, ht, hends⟩ := h
  refine ⟨t, ?_, runAll_cons [] ht, hends⟩
  rw [runStopping_cons [] ht]
  exact ite_self _

end

/-- Two commands that end with the same code and result show the host the same. -/
theorem sameResult_of_ends {s s' t t' : State} {w w' : Byte} {c : BitVec 3} {out : List Byte}
    (h : Ends s w c out t) (h' : Ends s' w' c out t') : SameResult t t' := by
  obtain ⟨-, herr, holen, hobuf, -⟩ := h
  obtain ⟨-, herr', holen', hobuf', -⟩ := h'
  exact ⟨herr'.trans herr.symm, BitVec.eq_of_toNat_eq (holen'.trans holen.symm),
    fun j => (hobuf' j).trans (hobuf j).symm⟩

/-! ## The round trip -/

/-- Settles O49: the transfer hands the text to DECODE, and `Decode` undoes `Encode`. -/
theorem decodeUndoesEncode : Obligations.DecodeUndoesEncode := by
  unfold Obligations.DecodeUndoesEncode
  intro a f s xs hin hfits
  have hlen : encodedLength a f xs.length ≤ s.mcap := (paddedLength_eq a f _).trans_le hfits
  obtain ⟨text, htext, hcount, hback⟩ := decodeText_encodeText a f xs
  rw [← hcount] at hlen
  have hencode := completes_of_ok rfl (decodeWord_encode f a) hin
    (outputSizeError_fits (hcount ▸ hlen)) htext hlen
  obtain ⟨s', hin', hm, hrun, -⟩ := run_xfer_of_completes hencode hlen
  have ⟨_, hcap, _⟩ := hin
  have hdecode := completes_of_ok rfl (decodeWord_decode a) hin' rfl hback (hm ▸ hcap)
  obtain ⟨t, ht, -, hcmd, herr, holen, hobuf, -⟩ := run_singleton hdecode
  exact ⟨t, (hrun _).trans ht, herr, hcmd, holen, hobuf⟩

/-! ## The codec on one group -/

/-- A pad group is the symbols of a full group (`44_padder.md` R155). -/
theorem padGroup_dvd_groupSyms (a : Alphabet) :
    padGroup a = 0 ∨ padGroup a ∣ groupSyms (symbolBits a) := by
  cases a <;> decide

/-- The text of one group fits in a buffer of every capacity. -/
theorem paddedLength_le_mcap {a : Alphabet} (f : Bool) {k : Nat} (s : State)
    (hk : k ≤ groupSyms (symbolBits a)) : paddedLength a f k ≤ s.mcap := by
  exact (paddedLength_le f hk (padGroup_dvd_groupSyms a)).trans
    ((groupSyms_le (symbolBits_width a)).trans s.mcap_bounds.1)

/-- On one group `Encode` is Pack, then the lookup, then the padding. -/
theorem encodeText_of_one_group {a : Alphabet} {b : List Byte} (f : Bool)
    (hb : b.length ≤ groupBytes (symbolBits a)) : encodeText a f b =
      andThen (valueToChar a (packCells (symbolBits a) b)) fun chars => padAppend a f chars := by
  rw [encodeText, packMessage_of_le (symbolBits_width a) hb, andThen_ok]

/-- Settles O50: both end with the padded characters of the group's symbols. -/
theorem encodeEqualsTheChain : Obligations.EncodeEqualsTheChain := by
  unfold Obligations.EncodeEqualsTheChain
  intro a f s xs hin hb
  have hwidth := symbolBits_width a
  have hpacked := packedAs_packCells hwidth hb
  have hgroup : symCount (symbolBits a) xs.length ≤ groupSyms (symbolBits a) :=
    symCount_le_groupSyms hwidth hb
  obtain ⟨chars, hchars⟩ := valueToChar_of_forall_lt hpacked.lt
  have hlen : chars.length = symCount (symbolBits a) xs.length :=
    (mapCells_length hchars).trans hpacked.length
  have hsyms (s' : State) : symCount (symbolBits a) xs.length ≤ s'.mcap :=
    hgroup.trans ((groupSyms_le hwidth).trans s'.mcap_bounds.1)
  have htext (s' : State) : paddedLength a f chars.length ≤ s'.mcap :=
    paddedLength_le_mcap f s' (hlen ▸ hgroup)
  have hlength : (chars ++ List.replicate (padCount a f chars.length) padChar).length =
      paddedLength a f chars.length := by
    rw [List.length_append, List.length_replicate, paddedLength]
  have hpack := completes_of_ok rfl (decodeWord_pack a) hin (groupSizeError_fits hb)
    (pack_eq_ok hb) (hpacked.length ▸ hsyms s)
  obtain ⟨s₁, hin₁, -, -, hrun₁⟩ := run_xfer_of_completes hpack (hpacked.length ▸ hsyms s)
  have hv2c := completes_of_ok rfl (decodeWord_v2c a) hin₁ rfl hchars (hlen ▸ hsyms s₁)
  obtain ⟨s₂, hin₂, -, -, hrun₂⟩ := run_xfer_of_completes hv2c (hlen ▸ hsyms s₁)
  have hpada := completes_of_ok rfl (decodeWord_pada f a) hin₂ (outputSizeError_fits (htext s₂))
    (padAppend_eq_ok a f chars) (hlength ▸ htext s₂)
  obtain ⟨u, -, hu, hends⟩ := run_singleton hpada
  have hfunction : encodeText a f xs =
      .ok (chars ++ List.replicate (padCount a f chars.length) padChar) := by
    rw [encodeText_of_one_group f hb, hchars, andThen_ok, padAppend_eq_ok]
  obtain ⟨t, ht, hends'⟩ := completes_of_ok rfl (decodeWord_encode f a) hin
    (outputSizeError_fits (by rw [encodedLength, ← hlen]; exact htext s)) hfunction
    (hlength ▸ htext s)
  obtain ⟨-, holen, hobuf⟩ := sameResult_of_ends hends' hends
  have ⟨_, herr, _⟩ := hends'
  have ⟨_, herr', _⟩ := hends
  refine ⟨t, u, ht, ?_, herr, herr', holen, hobuf⟩
  rw [hrun₁, hrun₂, hu]

/-- The end of a chain is DECODE's end, where both have the same code and result. -/
theorem decode_sameResult {a : Alphabet} {s s' u : State} {w w' : Byte} {c : BitVec 3}
    {out : List Byte} (h : Completes (.decode a) s w c out) (h' : Ends s' w' c out u) :
    ∃ t, exec (.decode a) s = .next t ∧ SameResult t u := by
  obtain ⟨t, ht, hends⟩ := h
  exact ⟨t, ht, sameResult_of_ends hends h'⟩

/-- UNPACK at the end of the chain, on a group of symbols: it ends as `unpack` does, and so does
DECODE on a text that stands for this group. -/
theorem unpack_sameResult {a : Alphabet} {s s' : State} {xs syms : List Byte}
    (hin : InputIs s xs) (hin' : InputIs s' syms)
    (hlen : syms.length ≤ groupSyms (symbolBits a))
    (hdecode : decodeText a xs = unpack (symbolBits a) syms) :
    ∃ t u, exec (.decode a) s = .next t ∧ runStopping [.unpack a] s' = some u ∧
      SameResult t u := by
  have hsize := groupSizeError_fits hlen
  cases hres : unpack (symbolBits a) syms with
  | error k =>
    obtain ⟨u, hu, -, hends⟩ := run_singleton
      (completes_of_error rfl (decodeWord_unpack a) hin' hsize hres)
    obtain ⟨t, ht, hsame⟩ := decode_sameResult
      (completes_of_error rfl (decodeWord_decode a) hin rfl (hdecode.trans hres)) hends
    exact ⟨t, u, ht, hu, hsame⟩
  | ok ys =>
    have hwidth := symbolBits_width a
    have hfits (s : State) : ys.length ≤ s.mcap := by
      obtain ⟨-, -, -, rfl⟩ := unpack_eq_ok_inv hwidth hres
      rw [unpackCells_length hwidth hlen]
      exact (byteCount_le_groupBytes hwidth hlen).trans
        ((groupBytes_le hwidth).trans s.mcap_bounds.1)
    obtain ⟨u, hu, -, hends⟩ := run_singleton
      (completes_of_ok rfl (decodeWord_unpack a) hin' hsize hres (hfits s'))
    obtain ⟨t, ht, hsame⟩ := decode_sameResult
      (completes_of_ok rfl (decodeWord_decode a) hin rfl (hdecode.trans hres) (hfits s)) hends
    exact ⟨t, u, ht, hu, hsame⟩

/-- Settles O51: the chain stops at the stage where `Decode` fails, with its code, or both end as
`unpack` does. -/
theorem decodeEqualsTheChain : Obligations.DecodeEqualsTheChain := by
  unfold Obligations.DecodeEqualsTheChain
  intro a s xs hin hgroup
  have ⟨_, hcap, _⟩ := hin
  cases hstrip : padStrip xs with
  | error k =>
    obtain ⟨u, hu, hends⟩ := runStopping_of_error
      (completes_of_error rfl (decodeWord_pads a) hin rfl hstrip) _
    have hdecode : decodeText a xs = .error k := by rw [decodeText, hstrip, andThen_error]
    obtain ⟨t, ht, hsame⟩ := decode_sameResult
      (completes_of_error rfl (decodeWord_decode a) hin rfl hdecode) hends
    exact ⟨t, u, ht, hu, hsame⟩
  | ok text =>
    have hfits : text.length ≤ s.mcap := (padStrip_length_le hstrip).trans hcap
    obtain ⟨s₁, hin₁, -, hrun₁, -⟩ := run_xfer_of_completes
      (completes_of_ok rfl (decodeWord_pads a) hin rfl hstrip hfits) hfits
    rw [hrun₁]
    cases hvalues : charToValue a false text with
    | error k =>
      obtain ⟨u, hu, hends⟩ := runStopping_of_error
        (completes_of_error rfl (decodeWord_c2v false a) hin₁ rfl hvalues) _
      have hdecode : decodeText a xs = .error k := by
        rw [decodeText, hstrip, andThen_ok, hvalues, andThen_error]
      obtain ⟨t, ht, hsame⟩ := decode_sameResult
        (completes_of_error rfl (decodeWord_decode a) hin rfl hdecode) hends
      exact ⟨t, u, ht, hu, hsame⟩
    | ok syms =>
      have hlen : syms.length = text.length := mapCells_length hvalues
      have ⟨_, hcap₁, _⟩ := hin₁
      have hfits₁ : syms.length ≤ s₁.mcap := hlen ▸ hcap₁
      obtain ⟨s₂, hin₂, -, hrun₂, -⟩ := run_xfer_of_completes
        (completes_of_ok rfl (decodeWord_c2v false a) hin₁ rfl hvalues hfits₁) hfits₁
      rw [hrun₂]
      have hsyms : syms.length ≤ groupSyms (symbolBits a) := by
        rw [hlen, padStrip_eq_ok_inv hstrip]
        exact hgroup
      refine unpack_sameResult hin hin₂ hsyms ?_
      rw [decodeText, hstrip, andThen_ok, hvalues, andThen_ok,
        unpackMessage_of_le (symbolBits_width a) hsyms]

end Sys2Proof.Machine
end

section
/-! SUPPORT. The codes of the commands (`60_exceptions.md` R202, R204, R205), for every command at
once: which errors its function and its length can give, how long its result is, and what it does on
the empty input and on an input that was not written. -/

namespace Sys2Proof.Machine

open Sys2Proof.Claims

/-! ## The errors of each function -/

theorem pack_eq_error {n : Nat} {g : List Byte} {k : ErrorKind} (h : pack n g = .error k) :
    k = .invalidGroupSize := by
  rw [pack] at h
  split at h <;> cases h
  rfl

theorem unpack_eq_error {n : Nat} {g : List Byte} {k : ErrorKind} (h : unpack n g = .error k) :
    k = .invalidGroupSize ∨ k = .invalidNTet ∨ k = .notCanonicalInput := by
  rw [unpack] at h
  split at h
  · cases h; exact .inl rfl
  · split at h
    · cases h; exact .inr (.inl rfl)
    · split at h <;> cases h
      exact .inr (.inr rfl)

theorem valueToChar_eq_error {a : Alphabet} {xs : List Byte} {k : ErrorKind}
    (h : valueToChar a xs = .error k) : k = .noCorrespondingAlphabetCharacter := by
  by_cases hlt : ∀ x ∈ xs, x.toNat < 2 ^ symbolBits a
  · obtain ⟨ys, hys⟩ := valueToChar_of_forall_lt hlt
    rw [hys] at h; cases h
  · push Not at hlt
    rw [valueToChar_of_exists_ge hlt] at h; cases h; rfl

theorem charToValue_eq_error {a : Alphabet} {f : Bool} {xs : List Byte} {k : ErrorKind}
    (h : charToValue a f xs = .error k) : k = .outOfAlphabetCharacter := by
  by_cases hin : ∀ x ∈ xs, x ∈ table a ∨ (f = true ∧ x = padChar)
  · obtain ⟨ys, hys⟩ := charToValue_of_forall_inside hin
    rw [hys] at h; cases h
  · push Not at hin
    obtain ⟨x, hx, hout, hpad⟩ := hin
    rw [charToValue_of_exists_outside ⟨x, hx, hout, fun ⟨hf, hp⟩ => hpad hf hp⟩] at h
    cases h; rfl

theorem padStrip_eq_error {t : List Byte} {k : ErrorKind} (h : padStrip t = .error k) :
    k = .notCanonicalInput := by
  rw [padStrip] at h
  split at h <;> cases h
  rfl

/-- The values of a text are below 2^n and its groups are not too long, so of Unpack's errors only
one is left (`45_codec.md` R176). -/
theorem decodeText_eq_error {a : Alphabet} {t : List Byte} {k : ErrorKind}
    (h : decodeText a t = .error k) : k = .outOfAlphabetCharacter ∨ k = .notCanonicalInput := by
  rw [decodeText] at h
  cases hstrip : padStrip t with
  | error e =>
    rw [hstrip] at h; cases h
    exact .inr (padStrip_eq_error hstrip)
  | ok u =>
    rw [hstrip, andThen_ok] at h
    cases hvalues : charToValue a false u with
    | error e =>
      rw [hvalues] at h; cases h
      exact .inl (charToValue_eq_error hvalues)
    | ok syms =>
      rw [hvalues, andThen_ok] at h
      have hspelled := spelled_of_charToValue hvalues
      obtain ⟨herr, hok⟩ := unpackMessage_spec (symbolBits_width a) hspelled.lt
      by_cases ht : Trailing (symbolBits a) syms
      · rw [herr ht] at h; cases h
        exact .inr rfl
      · obtain ⟨ys, hys, -⟩ := hok ht
        rw [hys] at h; cases h

/-- The source errors of a command: its row of `60_exceptions.md` R202 without code 7. -/
def sourceErrors (i : Instr) : List ErrorKind :=
  match i with
  | .pack _ => [.invalidGroupSize]
  | .unpack _ => [.invalidGroupSize, .invalidNTet, .notCanonicalInput]
  | .v2c _ => [.noCorrespondingAlphabetCharacter]
  | .c2v _ _ => [.outOfAlphabetCharacter]
  | .pads _ => [.notCanonicalInput]
  | .decode _ => [.outOfAlphabetCharacter, .notCanonicalInput]
  | .nop => []
  | .pada _ _ => []
  | .encode _ _ => []
  | .geom _ => []
  | .xfer => []

theorem functionOf_eq_error {i : Instr} {xs : List Byte} {k : ErrorKind}
    (h : functionOf i xs = .error k) : k ∈ sourceErrors i := by
  cases i with
  | pack a => simpa [sourceErrors] using pack_eq_error h
  | unpack a => simpa [sourceErrors] using unpack_eq_error h
  | v2c a => simpa [sourceErrors] using valueToChar_eq_error h
  | c2v f a => simpa [sourceErrors] using charToValue_eq_error h
  | pads a => simpa [sourceErrors] using padStrip_eq_error h
  | decode a => simpa [sourceErrors] using decodeText_eq_error h
  | encode f a =>
    obtain ⟨syms, chars, -, -, -, htext⟩ := encodeText_spec a f xs
    exact absurd (htext.symm.trans h) (by simp)
  | pada f a => cases h
  | nop => cases h
  | geom a => cases h
  | xfer => cases h

/-! ## Results above the capacity -/

/-- The commands whose result can be longer than their input and 8 (`60_exceptions.md` R205). -/
def MayOverflow (i : Instr) : Prop := (∃ a, i = .pada true a) ∨ ∃ f a, i = .encode f a

theorem groupSizeError_eq_some {limit k : Nat} {e : ErrorKind}
    (h : groupSizeError limit k = some e) : e = .invalidGroupSize := by
  rw [groupSizeError] at h
  split at h <;> cases h
  rfl

theorem outputSizeError_eq_some {cap k : Nat} {len : Nat → Nat} {e : ErrorKind}
    (h : outputSizeError cap len k = some e) : e = .capacityExceeded ∧ cap < len k := by
  rw [outputSizeError] at h
  split at h <;> cases h
  exact ⟨rfl, ‹_›⟩

@[simp] theorem padCount_false (a : Alphabet) (k : Nat) : padCount a false k = 0 :=
  if_neg (by simp)

/-- The length of an input within the capacity decides a source error, or an overflow. -/
theorem lengthErrorOf_eq_some {i : Instr} {cap k : Nat} {e : ErrorKind} (hcap : k ≤ cap)
    (h : lengthErrorOf i cap k = some e) :
    e ∈ sourceErrors i ∨ (e = .capacityExceeded ∧ MayOverflow i) := by
  cases i with
  | pack a | unpack a => exact .inl (by simp [sourceErrors, groupSizeError_eq_some h])
  | encode f a =>
    obtain ⟨he, -⟩ := outputSizeError_eq_some h
    exact .inr ⟨he, .inr ⟨f, a, rfl⟩⟩
  | pada f a =>
    obtain ⟨he, hover⟩ := outputSizeError_eq_some h
    cases f with
    | true => exact .inr ⟨he, .inl ⟨a, rfl⟩⟩
    | false =>
      rw [paddedLength, padCount_false] at hover
      omega
  | nop | v2c a | c2v f a | pads a | decode a | geom a | xfer => cases h

/-- The bytes of a symbol sequence are at most as many as its symbols. -/
theorem decodeText_length_le {a : Alphabet} {t ys : List Byte} (h : decodeText a t = .ok ys) :
    ys.length ≤ t.length := by
  rw [decodeText] at h
  cases hstrip : padStrip t with
  | error e => rw [hstrip] at h; cases h
  | ok u =>
    rw [hstrip, andThen_ok] at h
    cases hvalues : charToValue a false u with
    | error e => rw [hvalues] at h; cases h
    | ok syms =>
      rw [hvalues, andThen_ok] at h
      have hwidth := symbolBits_width a
      obtain ⟨herr, hok⟩ := unpackMessage_spec hwidth (spelled_of_charToValue hvalues).lt
      have ht : ¬ Trailing (symbolBits a) syms := fun ht => by
        rw [herr ht] at h; cases h
      obtain ⟨zs, hzs, hlen, -⟩ := hok ht
      obtain rfl : zs = ys := Except.ok.inj (hzs.symm.trans h)
      calc zs.length = byteCount (symbolBits a) syms.length := hlen
        _ ≤ syms.length := byteCount_le hwidth _
        _ = u.length := mapCells_length hvalues
        _ ≤ t.length := padStrip_length_le hstrip

/-- A result is at most as long as the input or as one group, but where it may overflow. -/
theorem functionOf_length_le {i : Instr} {xs ys : List Byte} (h : functionOf i xs = .ok ys) :
    ys.length ≤ max 8 xs.length ∨ MayOverflow i := by
  cases i with
  | pack a =>
    have hwidth := symbolBits_width a
    have hg : xs.length ≤ groupBytes (symbolBits a) := by
      by_contra hover
      rw [functionOf, pack, if_pos (Nat.not_le.mp hover)] at h
      cases h
    have hsyms := (symCount_le_groupSyms hwidth hg).trans (groupSyms_le hwidth)
    rw [functionOf, pack_eq_ok hg] at h
    cases h
    rw [packCells_length hwidth hg]
    omega
  | unpack a =>
    have hwidth := symbolBits_width a
    obtain ⟨hlen, -, -, rfl⟩ := unpack_eq_ok_inv hwidth h
    have hle := byteCount_le hwidth xs.length
    rw [unpackCells_length hwidth hlen]
    omega
  | v2c a | c2v f a => exact .inl ((mapCells_length h).trans_le (Nat.le_max_right _ _))
  | pads a => exact .inl ((padStrip_length_le h).trans (Nat.le_max_right _ _))
  | decode a => exact .inl ((decodeText_length_le h).trans (Nat.le_max_right _ _))
  | encode f a => exact .inr (.inr ⟨f, a, rfl⟩)
  | pada f a =>
    cases f with
    | true => exact .inr (.inl ⟨a, rfl⟩)
    | false =>
      rw [functionOf, padAppend_eq_ok, padCount_false] at h
      cases h
      exact .inl (by simp)
  | nop | geom a | xfer => cases h; exact .inl (Nat.zero_le _)

/-! ## The code of a command -/

/-- Every code a command can end with: a source error of its own, or code 7, which within the
capacity is left to those whose result may overflow. -/
theorem exec_err_cases {i : Instr} {s t : State} (h : exec i s = .next t) :
    t.err = 0 ∨ (∃ k ∈ sourceErrors i, t.err = k.code) ∨
      (t.err = 7 ∧ takesInput i = true ∧ (s.ilen.toNat ≤ s.mcap → MayOverflow i)) := by
  cases hi : takesInput i with
  | false => exact .inl (exec_err_of_takesInput_eq_false hi h)
  | true =>
    rw [exec_takesInput hi] at h
    obtain ⟨hover, rfl⟩ | ⟨hcap, k, hk, rfl⟩ | ⟨hcap, -, xs, hread, rfl⟩ := runOnInput_cases h
    · exact .inr (.inr ⟨rfl, rfl, fun hcap => absurd hover (Nat.not_lt.mpr hcap)⟩)
    · obtain hsource | ⟨rfl, hmay⟩ := lengthErrorOf_eq_some hcap hk
      · exact .inr (.inl ⟨k, hsource, rfl⟩)
      · exact .inr (.inr ⟨rfl, rfl, fun _ => hmay⟩)
    · obtain ⟨k, hf, herr | ⟨rfl, ys, hys, hlong⟩⟩ | ⟨ys, -, -, hf⟩ :=
        finish_cases (functionOf i xs) (s.storeCmd (encodeWord i)) <;> rw [hf]
      · exact .inr (.inl ⟨k, functionOf_eq_error herr, rfl⟩)
      · obtain ⟨hlen, -⟩ := State.readIn_eq_some.mp hread
        have hmcap := s.mcap_bounds.1
        rw [State.storeCmd_mcap] at hlong
        refine .inr (.inr ⟨rfl, rfl, fun _ => (functionOf_length_le hys).resolve_left ?_⟩)
        omega
      · exact .inl rfl

/-- No source error has code 7. -/
theorem code_ne_seven_of_mem_sourceErrors {i : Instr} {k : ErrorKind} (h : k ∈ sourceErrors i) :
    k.code ≠ 7 := by
  have hk : k ≠ .capacityExceeded := by
    rintro rfl
    cases i <;> simp [sourceErrors] at h
  cases k with
  | capacityExceeded => exact absurd rfl hk
  | outOfAlphabetCharacter | invalidGroupSize | invalidNTet | notCanonicalInput
  | noCorrespondingAlphabetCharacter | illegalCommand => decide

/-- Settles O33: a command's codes are 0, those of its source errors, and 7 where it takes IN. -/
theorem eachCommandKeepsToItsCodes : Obligations.EachCommandKeepsToItsCodes := by
  unfold Obligations.EachCommandKeepsToItsCodes
  intro i s t h
  have hmem : t.err = 0 ∨ t.err ∈ (sourceErrors i).map ErrorKind.code ∨
      (t.err = 7 ∧ takesInput i = true) := by
    obtain h0 | ⟨k, hk, herr⟩ | ⟨h7, hi, -⟩ := exec_err_cases h
    · exact .inl h0
    · exact .inr (.inl (List.mem_map.mpr ⟨k, hk, herr.symm⟩))
    · exact .inr (.inr ⟨h7, hi⟩)
  cases i <;> simpa [sourceErrors, ErrorKind.code, takesInput, or_assoc] using hmem

/-- An input up to this length has a text that fits in `cap` cells (`60_exceptions.md` R205). -/
def encodeBound (a : Alphabet) (cap : Nat) : Nat :=
  match a with
  | .octal => 3 * cap / 8
  | .base16 => cap / 2
  | .base16upper => cap / 2
  | .base32 => 5 * (cap / 8)
  | .base32hex => 5 * (cap / 8)
  | .base64 => 3 * (cap / 4)
  | .base64url => 3 * (cap / 4)

theorem encodedLength_le_of_bound (f : Bool) {a : Alphabet} {k cap : Nat}
    (h : k ≤ encodeBound a cap) : encodedLength a f k ≤ cap := by
  have hwhole {m : Nat} (hm : m ≤ cap) (hpad : padGroup a = 0 ∨ padGroup a ∣ m)
      (hk : symCount (symbolBits a) k ≤ m) : encodedLength a f k ≤ cap :=
    (paddedLength_le f hk hpad).trans hm
  unfold symCount ceilDiv at hwhole
  cases a with
  | octal | base16 | base16upper =>
    exact hwhole (Nat.le_refl cap) (.inl rfl)
      (by dsimp only [symbolBits, encodeBound] at h ⊢; omega)
  | base32 | base32hex =>
    exact hwhole (Nat.mul_div_le cap 8) (.inr ⟨_, rfl⟩)
      (by dsimp only [symbolBits, encodeBound] at h ⊢; omega)
  | base64 | base64url =>
    exact hwhole (Nat.mul_div_le cap 4) (.inr ⟨_, rfl⟩)
      (by dsimp only [symbolBits, encodeBound] at h ⊢; omega)

/-- Settles O32: overflow is code 7 within the capacity, a good state stays good, and the bound
leaves room for the text. -/
theorem onlyPadaAndEncodeOverflowTheResult : Obligations.OnlyPadaAndEncodeOverflowTheResult := by
  unfold Obligations.OnlyPadaAndEncodeOverflowTheResult
  refine ⟨fun i s t hcap h h7 => ?_, fun i s t hwf h => ?_, fun f a s xs hin hbound => ?_⟩
  · obtain h0 | ⟨k, hk, herr⟩ | ⟨-, -, hmay⟩ := exec_err_cases h
    · exact absurd (h0.symm.trans h7) (by decide)
    · exact absurd (herr.symm.trans h7) (code_ne_seven_of_mem_sourceErrors hk)
    · exact hmay hcap
  · obtain ⟨-, -, -, -, holen⟩ := exec_keeps_wf hwf h
    exact holen
  · have hfits := encodedLength_le_of_bound f (a := a) hbound
    obtain ⟨text, htext, hlen, -⟩ := decodeText_encodeText a f xs
    obtain ⟨t, ht, -, herr, -⟩ := completes_of_ok rfl (decodeWord_encode f a) hin
      (outputSizeError_fits hfits) htext (hlen ▸ hfits)
    exact ⟨t, ht, herr⟩

/-! ## An input that was not written -/

/-- Settles O36: where the length decides no error the template reads IN, and a cell without a value
refuses the command. -/
theorem unwrittenInputIsRefused : Obligations.UnwrittenInputIsRefused := by
  unfold Obligations.UnwrittenInputIsRefused
  intro i s j hi hcap hj hcell hlength
  have hnone : lengthErrorOf i s.mcap s.ilen.toNat = none := by
    cases i with
    | pack a | unpack a => exact groupSizeError_fits hlength
    | pada f a => exact outputSizeError_fits (hlength _ (padRun_iff.mpr rfl))
    | encode f a => exact outputSizeError_fits (hlength _ (padRun_iff.mpr rfl))
    | v2c a | c2v f a | pads a | decode a => rfl
    | nop | geom a | xfer => cases hi
  rw [exec_takesInput hi]
  exact runOnInput_unwritten hcap hnone (State.readIn_eq_none.mpr ⟨j, hj, hcell⟩)

/-! ## The empty input -/

theorem encodedLength_zero (a : Alphabet) (f : Bool) : encodedLength a f 0 = 0 := by
  cases f <;> cases a <;> decide

theorem lengthErrorOf_zero (i : Instr) (cap : Nat) : lengthErrorOf i cap 0 = none := by
  cases i with
  | pack a | unpack a => exact groupSizeError_fits (Nat.zero_le _)
  | pada f a =>
    have hzero : paddedLength a f 0 = 0 :=
      Nat.le_zero.mp (paddedLength_le f (Nat.le_refl 0) (.inr (dvd_zero _)))
    exact outputSizeError_fits (hzero.trans_le (Nat.zero_le cap))
  | encode f a => exact outputSizeError_fits ((encodedLength_zero a f).trans_le (Nat.zero_le cap))
  | nop | v2c a | c2v f a | pads a | decode a | geom a | xfer => rfl

/-- Every function gives the empty result on the empty input (`70_reset_and_hazards.md` R238). -/
theorem functionOf_nil (i : Instr) : functionOf i [] = .ok [] := by
  cases i with
  | pack a => exact pack_nil (symbolBits_width a)
  | unpack a => exact unpack_nil (symbolBits_width a)
  | pada f a | encode f a => cases f <;> cases a <;> rfl
  | nop | v2c a | c2v f a | pads a | decode a | geom a | xfer => rfl

/-- Settles O37: a failure leaves the empty result, which XFER makes the input. -/
theorem xferHidesAFailure : Obligations.XferHidesAFailure := by
  unfold Obligations.XferHidesAFailure
  intro w s t h herr
  obtain ⟨k, rfl⟩ | ⟨u, rfl, -⟩ := hostWriteCmd_cases h
  · obtain ⟨s', hx, herr', hin, -⟩ := exec_xfer_of_ends (fail_ends k s w) (Nat.zero_le _)
    have ⟨hilen, _, _⟩ := hin
    refine ⟨s', hx, herr', BitVec.eq_of_toNat_eq hilen, fun j hj => ?_⟩
    obtain ⟨t, ht, -, herr, holen, hobuf, -⟩ := completes_of_ok hj (decodeWord_encodeWord j) hin
      (lengthErrorOf_zero j _) (functionOf_nil j) (Nat.zero_le _)
    exact ⟨t, ht, herr, BitVec.eq_of_toNat_eq holen, hobuf⟩
  · exact absurd (succeed_err u) herr

end Sys2Proof.Machine
end
